-- ==== Sys2Proof/Word.lean ====
section
/-!
DEFINITION. The two word sizes of the aita/lc-3 CORE and the names its spec gives to registers, flags and trap
services. Rules R6, R7 (00_scope.md), R20, R25 (10_state.md), R71 (30_encoding.md).
-/

namespace Sys2Proof

/-- R7: every register value, memory cell, address and instruction is a 16-bit word. Arithmetic on it is modulo
65536 (`BitVec` addition). -/
abbrev Word := BitVec 16

/-- A console character (R135, R138). -/
abbrev Byte := BitVec 8

/-- R20: the eight general registers R0..R7, none of them hardwired (R21). -/
inductive Reg where
  | r0 | r1 | r2 | r3 | r4 | r5 | r6 | r7
deriving DecidableEq, Repr, Inhabited

/-- R25: COND holds exactly one of three mutually exclusive flags, Positive, Zero, Negative. R26 allows the
three-constructor type; the numeric encoding is `Cond.toWord` in Machine/Flags.lean. -/
inductive Cond where
  | P | Z | N
deriving DecidableEq, Repr, Inhabited

end Sys2Proof
end

