-- ==== Sys2Proof/Syntax.lean ====
section
/-!
DEFINITION. The instructions of the aita/lc-3 CORE: one constructor for each of the 25 rows of
spec/opcode_table.json. Operands are the fields of 30_encoding.md rules R62 to R64, with the register fields already
turned into register names. A bit the decoder ignores (R67) is no operand, except in the two fatal forms, whose whole
word the fault records (R133, R134, R146).
-/

namespace Sys2Proof

inductive Instr where
  /-- ADD, register form (R91). -/
  | addReg (dr sr1 sr2 : Reg)
  /-- ADD, immediate form (R92). -/
  | addImm (dr sr1 : Reg) (imm5 : BitVec 5)
  /-- AND, register form (R93). -/
  | andReg (dr sr1 sr2 : Reg)
  /-- AND, immediate form (R94). -/
  | andImm (dr sr1 : Reg) (imm5 : BitVec 5)
  /-- NOT (R95). -/
  | not (dr sr : Reg)
  /-- BR (R100): the three mask bits and the offset. -/
  | br (n z p : Bool) (pcOffset9 : BitVec 9)
  /-- JMP, and RET when the base is R7 (R101). -/
  | jmp (baseR : Reg)
  /-- JSR (R102). -/
  | jsr (pcOffset11 : BitVec 11)
  /-- JSRR (R103). -/
  | jsrr (baseR : Reg)
  /-- LD (R111). -/
  | ld (dr : Reg) (pcOffset9 : BitVec 9)
  /-- LDI (R112). -/
  | ldi (dr : Reg) (pcOffset9 : BitVec 9)
  /-- LDR (R113). -/
  | ldr (dr baseR : Reg) (offset6 : BitVec 6)
  /-- LEA (R114). -/
  | lea (dr : Reg) (pcOffset9 : BitVec 9)
  /-- ST (R115). -/
  | st (sr : Reg) (pcOffset9 : BitVec 9)
  /-- STI (R116). -/
  | sti (sr : Reg) (pcOffset9 : BitVec 9)
  /-- STR (R117). -/
  | str (sr baseR : Reg) (offset6 : BitVec 6)
  /-- TRAP, the generic row (R125): the decoder gives it for the vectors that select no service (R132). -/
  | trap (trapvect8 : BitVec 8)
  /-- TRAP x20 (R126). -/
  | trapGetc
  /-- TRAP x21 (R127). -/
  | trapOut
  /-- TRAP x22 (R128). -/
  | trapPuts
  /-- TRAP x23 (R129). -/
  | trapIn
  /-- TRAP x24 (R130). -/
  | trapPutsp
  /-- TRAP x25 (R131). -/
  | trapHalt
  /-- Opcode 8, return from interrupt, unsupported (R133), with its twelve ignored bits. -/
  | rti (low : BitVec 12)
  /-- Opcode 13, reserved (R134), with its twelve ignored bits. -/
  | res (low : BitVec 12)
deriving DecidableEq, Repr

end Sys2Proof
end

