-- ==== Sys2Proof/WellFormed.lean ====
section
/-!
DEFINITION. Which terms of `Instr` stand for a word. The types of the operands already hold every field in its range
(R63, R64: every field value is legal), so one check is left: the generic TRAP row carries none of the six vectors
that select a service, because the service rows have the longer mask and win (spec/opcode_table.json, row TRAP; R71).
-/

namespace Sys2Proof

/-- R71: the six vectors that select a service. -/
def isServiceVector (v : BitVec 8) : Bool :=
  0x20#8 ≤ v && v ≤ 0x25#8

/-- The check on one instruction. -/
def Instr.wellFormed : Instr → Bool
  | .trap v => !isServiceVector v
  | .addReg _ _ _ => true
  | .addImm _ _ _ => true
  | .andReg _ _ _ => true
  | .andImm _ _ _ => true
  | .not _ _ => true
  | .br _ _ _ _ => true
  | .jmp _ => true
  | .jsr _ => true
  | .jsrr _ => true
  | .ld _ _ => true
  | .ldi _ _ => true
  | .ldr _ _ _ => true
  | .lea _ _ => true
  | .st _ _ => true
  | .sti _ _ => true
  | .str _ _ _ => true
  | .trapGetc => true
  | .trapOut => true
  | .trapPuts => true
  | .trapIn => true
  | .trapPutsp => true
  | .trapHalt => true
  | .rti _ => true
  | .res _ => true

end Sys2Proof
end

