-- ==== Sys2Proof/Decode.lean ====
section
/-!
DEFINITION. The instruction decoder (30_encoding.md rules R60 to R72) and, after it, the encoder written from the same
tables. Opcode values and field positions are the spec's decision D1 (R62, R66).
-/

namespace Sys2Proof

/-- The 16 opcodes, "with the two unsupported variants represented explicitly" (R61, R66). -/
inductive Opcode where
  | br | add | ld | st | jsr | and | ldr | str | rti | not | ldi | sti | jmp | res | lea | trap
deriving DecidableEq, Repr

/-- The opcode map of R66: bits 15, 14, 13, 12 of the word, in the order of the table. -/
def Opcode.ofBits (b : BitVec 4) : Opcode :=
  match b.getLsbD 3, b.getLsbD 2, b.getLsbD 1, b.getLsbD 0 with
  | false, false, false, false => .br
  | false, false, false, true => .add
  | false, false, true, false => .ld
  | false, false, true, true => .st
  | false, true, false, false => .jsr
  | false, true, false, true => .and
  | false, true, true, false => .ldr
  | false, true, true, true => .str
  | true, false, false, false => .rti
  | true, false, false, true => .not
  | true, false, true, false => .ldi
  | true, false, true, true => .sti
  | true, true, false, false => .jmp
  | true, true, false, true => .res
  | true, true, true, false => .lea
  | true, true, true, true => .trap

/-- R63: a 3-bit field value is the number of the register. -/
def Reg.ofBits (b : BitVec 3) : Reg :=
  match b.getLsbD 2, b.getLsbD 1, b.getLsbD 0 with
  | false, false, false => .r0
  | false, false, true => .r1
  | false, true, false => .r2
  | false, true, true => .r3
  | true, false, false => .r4
  | true, false, true => .r5
  | true, true, false => .r6
  | true, true, true => .r7

/-- R61: the opcode is bits [15:12]. -/
def opcodeOf (w : Word) : Opcode := Opcode.ofBits (w.extractLsb' 12 4)

/-- R63: DR, and SR of the stores, are bits [11:9]. -/
def fieldDR (w : Word) : Reg := Reg.ofBits (w.extractLsb' 9 3)

/-- R63: SR1, BaseR and SR of NOT are bits [8:6]. -/
def fieldSR1 (w : Word) : Reg := Reg.ofBits (w.extractLsb' 6 3)

/-- R63: SR2 is bits [2:0]. -/
def fieldSR2 (w : Word) : Reg := Reg.ofBits (w.extractLsb' 0 3)

/-- R64: imm5 is bits [4:0]. -/
def fieldImm5 (w : Word) : BitVec 5 := w.extractLsb' 0 5

/-- R64: offset6 is bits [5:0]. -/
def fieldOffset6 (w : Word) : BitVec 6 := w.extractLsb' 0 6

/-- R64: pcOffset9 is bits [8:0]. -/
def fieldPcOffset9 (w : Word) : BitVec 9 := w.extractLsb' 0 9

/-- R64: pcOffset11 is bits [10:0]. -/
def fieldPcOffset11 (w : Word) : BitVec 11 := w.extractLsb' 0 11

/-- R71: trapvect8 is bits [7:0]. -/
def fieldTrapvect8 (w : Word) : BitVec 8 := w.extractLsb' 0 8

/-- The twelve bits below the opcode, which the fault of R146 records. -/
def fieldLow12 (w : Word) : BitVec 12 := w.extractLsb' 0 12

/-- R71: the vector is compared as a number; no vector table is read. -/
def decodeTrap (v : BitVec 8) : Instr :=
  if v = 0x20#8 then .trapGetc
  else if v = 0x21#8 then .trapOut
  else if v = 0x22#8 then .trapPuts
  else if v = 0x23#8 then .trapIn
  else if v = 0x24#8 then .trapPutsp
  else if v = 0x25#8 then .trapHalt
  else .trap v

/-- R70: decode is total, each of the 65,536 words is exactly one instruction. Bits [15:12] select (R61, R66), and
bit 5 for ADD and AND, bit 11 for opcode 4 (R65). -/
def decode (w : Word) : Instr :=
  match opcodeOf w with
  | .br => .br (w.getLsbD 11) (w.getLsbD 10) (w.getLsbD 9) (fieldPcOffset9 w)
  | .add =>
    if w.getLsbD 5 then .addImm (fieldDR w) (fieldSR1 w) (fieldImm5 w)
    else .addReg (fieldDR w) (fieldSR1 w) (fieldSR2 w)
  | .ld => .ld (fieldDR w) (fieldPcOffset9 w)
  | .st => .st (fieldDR w) (fieldPcOffset9 w)
  | .jsr => if w.getLsbD 11 then .jsr (fieldPcOffset11 w) else .jsrr (fieldSR1 w)
  | .and =>
    if w.getLsbD 5 then .andImm (fieldDR w) (fieldSR1 w) (fieldImm5 w)
    else .andReg (fieldDR w) (fieldSR1 w) (fieldSR2 w)
  | .ldr => .ldr (fieldDR w) (fieldSR1 w) (fieldOffset6 w)
  | .str => .str (fieldDR w) (fieldSR1 w) (fieldOffset6 w)
  | .rti => .rti (fieldLow12 w)
  | .not => .not (fieldDR w) (fieldSR1 w)
  | .ldi => .ldi (fieldDR w) (fieldPcOffset9 w)
  | .sti => .sti (fieldDR w) (fieldPcOffset9 w)
  | .jmp => .jmp (fieldSR1 w)
  | .res => .res (fieldLow12 w)
  | .lea => .lea (fieldDR w) (fieldPcOffset9 w)
  | .trap => decodeTrap (fieldTrapvect8 w)

/-- The decoder as the host asks for it: the table's rows are all 16 bits wide (R60), one memory cell, so `w` is the
word itself; a number that is no 16-bit word is no instruction. -/
def decodeTableWord (_nbits w : Nat) : Option Instr :=
  if w < 65536 then some (decode (BitVec.ofNat 16 w)) else none

/-! ### The encoder -/

/-- R63, the other way. -/
def Reg.toBits : Reg → BitVec 3
  | .r0 => 0
  | .r1 => 1
  | .r2 => 2
  | .r3 => 3
  | .r4 => 4
  | .r5 => 5
  | .r6 => 6
  | .r7 => 7

/-- The formats of R62, field by field from bit 15 down. An ignored bit gets what a conventional assembler emits. -/
def encode : Instr → Word
  | .addReg dr sr1 sr2 => 0b0001#4 ++ dr.toBits ++ sr1.toBits ++ 0b0#1 ++ 0b00#2 ++ sr2.toBits
  | .addImm dr sr1 imm5 => 0b0001#4 ++ dr.toBits ++ sr1.toBits ++ 0b1#1 ++ imm5
  | .andReg dr sr1 sr2 => 0b0101#4 ++ dr.toBits ++ sr1.toBits ++ 0b0#1 ++ 0b00#2 ++ sr2.toBits
  | .andImm dr sr1 imm5 => 0b0101#4 ++ dr.toBits ++ sr1.toBits ++ 0b1#1 ++ imm5
  | .not dr sr => 0b1001#4 ++ dr.toBits ++ sr.toBits ++ 0b111111#6
  | .br n z p off => 0b0000#4 ++ BitVec.ofBool n ++ BitVec.ofBool z ++ BitVec.ofBool p ++ off
  | .jmp base => 0b1100#4 ++ 0b000#3 ++ base.toBits ++ 0b000000#6
  | .jsr off => 0b0100#4 ++ 0b1#1 ++ off
  | .jsrr base => 0b0100#4 ++ 0b0#1 ++ 0b00#2 ++ base.toBits ++ 0b000000#6
  | .ld dr off => 0b0010#4 ++ dr.toBits ++ off
  | .ldi dr off => 0b1010#4 ++ dr.toBits ++ off
  | .ldr dr base off => 0b0110#4 ++ dr.toBits ++ base.toBits ++ off
  | .lea dr off => 0b1110#4 ++ dr.toBits ++ off
  | .st sr off => 0b0011#4 ++ sr.toBits ++ off
  | .sti sr off => 0b1011#4 ++ sr.toBits ++ off
  | .str sr base off => 0b0111#4 ++ sr.toBits ++ base.toBits ++ off
  | .trap v => 0b1111#4 ++ 0b0000#4 ++ v
  | .trapGetc => 0b1111#4 ++ 0b0000#4 ++ 0x20#8
  | .trapOut => 0b1111#4 ++ 0b0000#4 ++ 0x21#8
  | .trapPuts => 0b1111#4 ++ 0b0000#4 ++ 0x22#8
  | .trapIn => 0b1111#4 ++ 0b0000#4 ++ 0x23#8
  | .trapPutsp => 0b1111#4 ++ 0b0000#4 ++ 0x24#8
  | .trapHalt => 0b1111#4 ++ 0b0000#4 ++ 0x25#8
  | .rti low => 0b1000#4 ++ low
  | .res low => 0b1101#4 ++ low

end Sys2Proof
end

