-- ==== Sys2Proof/Machine/Bits.lean ====
section
/-!
DEFINITION. Extending and taking apart words: rules R8, R64 (sign and zero extension), R6 (low and high byte), R167
(the byte order of an image file).
-/

namespace Sys2Proof.Machine

/-- R64, `sext_16`: bits [15:N] of the result all equal bit N-1 of the field. -/
def sext16 {n : Nat} (f : BitVec n) : Word := f.signExtend 16

/-- R8, `zext_16`. -/
def zext16 (b : Byte) : Word := b.zeroExtend 16

/-- R6: bits [7:0]. -/
def lowByte (w : Word) : Byte := w.extractLsb' 0 8

/-- R6: bits [15:8]. -/
def highByte (w : Word) : Byte := w.extractLsb' 8 8

/-- R167: a word of an image file, "the byte at the lower offset being bits [15:8]". -/
def bigEndianWord (hi lo : Byte) : Word := hi ++ lo

end Sys2Proof.Machine
end

