-- ==== Sys2Proof/Config.lean ====
section
/-!
DEFINITION. The parameters of the hardware (00_scope.md rule R5). Those the source or a decision of the spec fixes
have a value. Those the spec calls OPEN ("the model takes as an argument", 92_eei_decisions.md, last table) are
`opaque` constants with no body: nothing in Lean can evaluate them, so whatever is proved holds for every value.
-/

namespace Sys2Proof.Config

/-- `PC_RESET` (R5, R36, R165): the value PC takes at reset. -/
def pcReset : Word := 0x3000#16

/-- `KBSR` (R5, R34, R50): the keyboard status port. -/
def kbsr : Word := 0xFE00#16

/-- `KBDR` (R5, R34, R50): the keyboard data port. -/
def kbdr : Word := 0xFE02#16

/-- `KBSR_READY` (R5, R43): the status value when input is pending. The source says "high bit set"; that bits
[14:0] are clear is the spec's decision D6. -/
def kbsrReady : Word := 0x8000#16

/-- `MEM_SIZE` (R5, R40): the number of cells. -/
def memSize : Nat := 65536

/-- `GPR_RESET` (R5, R36, D3): what R0..R7 hold at reset. Free value, assumption 3. -/
opaque gprReset : Reg → Word

/-- `COND_RESET` (R5, R36, D4): the flag set at reset, one of P, Z, N. Free value, assumption 4. -/
opaque condReset : Cond

/-- `MEM_RESET` (R5, R36, R52, D5): what a cell that nothing has written holds, one word for each address, fixed for
the run (R37). Free value, assumption 2. -/
opaque memReset : Word → Word

/-- `EOF_SENTINEL` (R5, R137, D12): what a console read delivers at end of input or on a console error. Free value,
assumption 5. -/
opaque eofSentinel : Word

/-- `IN_PROMPT` (R5, R129, D13): the byte string trap IN writes before it reads. Free value, assumption 6. -/
opaque inPrompt : List Byte

/-- `HALT_MSG` (R5, R131, D13): the byte string trap HALT writes. Free value, assumption 6. -/
opaque haltMsg : List Byte

end Sys2Proof.Config
end

