-- ==== Sys2Proof/Machine/State.lean ====
section
/-!
DEFINITION. The state of the aita/lc-3 CORE (10_state.md, 20_memory.md R40, 43_trap.md R135), as plain data: eight
general registers, PC, COND, the run state, the memory array, and the console outside the CORE that the CORE reads and
writes. R32, R33, R35: there is no other state.
-/

namespace Sys2Proof.Machine

/-- R20: the register file. -/
structure RegFile where
  r0 : Word
  r1 : Word
  r2 : Word
  r3 : Word
  r4 : Word
  r5 : Word
  r6 : Word
  r7 : Word
deriving DecidableEq, Repr

/-- R30: the run state. `ready` is the time before the host's start, when R36 and R165 say the CORE "is not yet
running" (assumption 8). -/
inductive RunState where
  /-- After reset, before the start (R36, R165). -/
  | ready
  /-- R171: from the start on. -/
  | running
  /-- R131: entered by trap HALT only; terminal, the normal end. -/
  | halted
  /-- R146: `Fault(IllegalOpcode, a, ir)`, entered by opcodes 8 and 13 only; terminal, never a normal end. -/
  | faulted (a ir : Word)
deriving DecidableEq, Repr

/-- R40: the memory array. It lists, by strictly rising address, the cells something has written since reset; a cell
that is not listed holds the free value `MEM_RESET` of its address (assumptions 1 and 2). The smallest addressable unit
is the 16-bit word (R40), so an entry is a word, not a byte. -/
abbrev Memory := List (Nat × Word)

/-- What the CORE sends to the console (R35): a byte, or a flush mark (R139). -/
inductive ConsoleOut where
  | byte (b : Byte)
  | flush
deriving DecidableEq, Repr

/-- The console (R35, R135): its input stream, supplied by the environment, and its output stream. -/
structure Console where
  /-- The characters the environment supplies that no read has taken yet, oldest first. -/
  input : List Byte
  /-- After these the input ends, or the console is unavailable (R137), for good (assumption 20); otherwise nothing more
  has come yet. -/
  ended : Bool
  /-- The environment's answers to the coming polls (R136: "a model treats each answer as a free input"). -/
  polls : List Bool
  /-- The environment's answer to every poll after those. -/
  pollRest : Bool
  /-- Everything written so far, oldest first. -/
  output : List ConsoleOut
deriving DecidableEq, Repr

/-- The whole state. -/
structure State where
  regs : RegFile
  pc : Word
  cond : Cond
  run : RunState
  mem : Memory
  console : Console
  /-- R159: trap IN has written its prompt and is held in its blocking read. No register of the spec: the model's own
  mark of the step in progress (assumption 10). -/
  promptShown : Bool
deriving DecidableEq, Repr

/-- Why a step has no next state. -/
inductive Fault where
  /-- Raised by `step` when `run = halted`: R30, "the CORE takes no further step". Safe: the hardware has stopped. -/
  | coreHalted
  /-- Raised by `step` when `run = faulted a ir`: R146, "the CORE takes no further step". Safe: the hardware has
  stopped. -/
  | coreFaulted (a ir : Word)
  /-- Raised by PUTS and PUTSP when the walk meets no zero word for ever, which R12, R128 and U12 call a hang: the
  step never completes. Safe: the hardware has no next state either. -/
  | endlessString
deriving DecidableEq, Repr

/-- Why the model has no meaning for an instruction. -/
inductive Refusal where
  /-- Raised by an arm of `exec` whose instruction has no meaning yet. No arm does. Safe. -/
  | notModelled (mnemonic : String)
deriving DecidableEq, Repr

/-- The console as it stands at reset (assumption 7): nothing has come and nothing has been written. R36 puts it
outside the CORE, "whatever the host console holds"; the environment's moves (Machine/Environment.lean) fill it. -/
def Console.silent : Console :=
  { input := [], ended := false, polls := [], pollRest := false, output := [] }

/-- R36, R165: the machine after reset, with the values the spec leaves OPEN as arguments. -/
def State.resetWith (gpr : Reg → Word) (cond : Cond) (console : Console) : State :=
  { regs := { r0 := gpr .r0, r1 := gpr .r1, r2 := gpr .r2, r3 := gpr .r3,
              r4 := gpr .r4, r5 := gpr .r5, r6 := gpr .r6, r7 := gpr .r7 }
    pc := Config.pcReset
    cond := cond
    run := .ready
    mem := []
    console := console
    promptShown := false }

/-- R36, R165: the machine right after reset. PC is 0x3000 and the CORE is not yet running; R0..R7 and COND hold the
free values `GPR_RESET` and `COND_RESET`, and every cell of memory its free value `MEM_RESET`. -/
def State.reset : State :=
  State.resetWith Config.gprReset Config.condReset Console.silent

end Sys2Proof.Machine
end

