-- ==== Sys2Proof/Machine/Ops.lean ====
section
/-!
DEFINITION. The named operations every meaning is built from: registers (R20, R21), memory and the keyboard poll (R43,
R44), the console (R136 to R139), the fetch (R30), and the one exception (R146). An operation returns its word first
and the state after it second, and never fails, so that a meaning ends in a next state whatever the values are.
-/

namespace Sys2Proof.Machine

/-! ### Registers -/

/-- R20, `x[i]`. -/
def RegFile.get (f : RegFile) : Reg → Word
  | .r0 => f.r0
  | .r1 => f.r1
  | .r2 => f.r2
  | .r3 => f.r3
  | .r4 => f.r4
  | .r5 => f.r5
  | .r6 => f.r6
  | .r7 => f.r7

/-- R20, R21, `x[i] <- v`: any register takes any word. -/
def RegFile.set (f : RegFile) (r : Reg) (v : Word) : RegFile :=
  match r with
  | .r0 => { f with r0 := v }
  | .r1 => { f with r1 := v }
  | .r2 => { f with r2 := v }
  | .r3 => { f with r3 := v }
  | .r4 => { f with r4 := v }
  | .r5 => { f with r5 := v }
  | .r6 => { f with r6 := v }
  | .r7 => { f with r7 := v }

def State.reg (s : State) (r : Reg) : Word := s.regs.get r

def State.setReg (s : State) (r : Reg) (v : Word) : State := { s with regs := s.regs.set r v }

def State.setPc (s : State) (p : Word) : State := { s with pc := p }

def State.setCond (s : State) (c : Cond) : State := { s with cond := c }

def State.setRun (s : State) (r : RunState) : State := { s with run := r }

def State.setConsole (s : State) (c : Console) : State := { s with console := c }

def State.setPromptShown (s : State) (b : Bool) : State := { s with promptShown := b }

/-! ### Memory -/

/-- The word listed at an address, if any. -/
def Memory.lookup : Memory → Nat → Option Word
  | [], _ => none
  | (b, w) :: m, a => if a = b then some w else Memory.lookup m a

/-- List `v` at address `a`, keeping the addresses strictly rising. -/
def Memory.insert : Memory → Nat → Word → Memory
  | [], a, v => [(a, v)]
  | (b, w) :: m, a, v =>
    if a < b then (a, v) :: (b, w) :: m
    else if a = b then (a, v) :: m
    else (b, w) :: Memory.insert m a v

/-- The canonical form: strictly rising addresses, every one inside the address space (R40). An unlisted address has no
value in the list, so no entry can equal it (assumption 1). -/
abbrev Memory.wf (m : Memory) : Prop :=
  m.Pairwise (fun x y => x.1 < y.1) ∧ ∀ c ∈ m, c.1 < Config.memSize

/-- `MEM[a]`, the content of the cell, without a poll (R40). An unlisted cell holds `MEM_RESET[a]` (R37, R52). -/
def State.cell (s : State) (a : Word) : Word := (s.mem.lookup a.toNat).getD (Config.memReset a)

/-- R44, `MemWrite(addr, 16, v)`: a plain store for every address, with no poll and no console operation. -/
def State.memWrite (s : State) (a v : Word) : State := { s with mem := s.mem.insert a.toNat v }

/-! ### Console -/

/-- A read of the console input would return at once: a character is there, or the input has ended (R136, R137). -/
def Console.readable (c : Console) : Bool := !c.input.isEmpty || c.ended

/-- R136, `ConPoll()`: the environment's answer, which can be true only if a read would not block. It consumes no
character; it uses up the environment's answer to this poll (assumption 9). -/
def Console.poll (c : Console) : Bool × Console :=
  (c.readable && c.polls.headD c.pollRest, { c with polls := c.polls.tail })

/-- R137: the word a read delivers, the next character zero-extended, or `EOF_SENTINEL` when there is none. A character
that waits always comes before the sentinel; within one step, where nothing arrives, no character can follow a sentinel.
R137 is silent on that order (DESIGN CHOICE, unsafe, assumption 21). -/
def Console.nextWord (c : Console) : Word :=
  match c.input with
  | [] => Config.eofSentinel
  | b :: _ => zext16 b

/-- R137: the console after a read has removed that character. -/
def Console.afterRead (c : Console) : Console := { c with input := c.input.tail }

/-- R138, `ConWrite(b)` for each byte of a string, in order. -/
def Console.write (c : Console) (bs : List Byte) : Console :=
  { c with output := c.output ++ bs.map ConsoleOut.byte }

/-- R139, `ConFlush()`: recorded as a mark in the output stream. -/
def Console.flush (c : Console) : Console := { c with output := c.output ++ [.flush] }

/-- R138 on the machine. -/
def State.conWrite (s : State) (bs : List Byte) : State := s.setConsole (s.console.write bs)

/-- R139 on the machine. -/
def State.conFlush (s : State) : State := s.setConsole s.console.flush

/-- R137, `ConRead()`: the word and the state after it, or `none` while it blocks. -/
def State.conRead (s : State) : Option (Word × State) :=
  if s.console.readable then some (s.console.nextWord, s.setConsole s.console.afterRead) else none

/-! ### The read primitive -/

/-- R43: the poll a read of the status port performs first. `ConPoll` true is followed at once by `ConRead`, which then
does not block (R136). -/
def State.pollKeyboard (s : State) : State :=
  if s.console.poll.1 then
    ((s.setConsole s.console.poll.2.afterRead).memWrite Config.kbsr Config.kbsrReady).memWrite
      Config.kbdr s.console.poll.2.nextWord
  else
    (s.setConsole s.console.poll.2).memWrite Config.kbsr 0

/-- The side effect of a read (R43, R45): the poll if the address is the status port, nothing for any other. -/
def State.touch (s : State) (a : Word) : State :=
  if a = Config.kbsr then s.pollKeyboard else s

/-- R43, `MemRead(addr, 16)`: poll first if it is the status port, then return the cell. -/
def State.memRead (s : State) (a : Word) : Word × State := ((s.touch a).cell a, s.touch a)

/-- R30, the fetch phase: read the word at PC, then increment PC, which wraps (R24). -/
def State.fetch (s : State) : Word × State :=
  ((s.memRead s.pc).1, (s.memRead s.pc).2.setPc (s.pc + 1))

/-! ### The exception -/

/-- R146, `raise IllegalOpcode(a, ir)`, the only exception: it records the address the word was fetched from and the
word in the run state and writes nothing else. The fetch increment stands (PC is `a + 1`). There is no handler, no entry
sequence and no return (R149, R150): the fault ends the run. -/
def State.raiseIllegal (s : State) (ir : Word) : State := s.setRun (.faulted (s.pc - 1) ir)

/-- R159, R12: a read that blocks. The step has not happened yet, so the increment of the fetch is taken back and the
same instruction is fetched again when the CORE next tries. -/
def State.holdStep (s : State) : State := s.setPc (s.pc - 1)

/-! ### The string walk of PUTS and PUTSP -/

/-- The loop of R128 and R130: read a word at `p`, stop at a zero word, else emit it and go on at `p + 1`, which wraps
(R41). `none` when the fuel runs out. The console's side is as it stands when the walk begins, so that no poll of one walk
delivers a character after another has delivered `EOF_SENTINEL` (assumptions 11 and 21). -/
def State.walkString (emit : Word → List Byte) : Nat → Word → State → Option State
  | 0, _, _ => none
  | k + 1, p, s =>
    if (s.memRead p).1 = 0 then some (s.memRead p).2
    else State.walkString emit k (p + 1) ((s.memRead p).2.conWrite (emit (s.memRead p).1))

/-- Fuel that decides whether the walk ends. Every lap over the 65,536 addresses polls once, and a poll that answers
false ends the string (R128); after as many laps as there are characters and answers still to come the console answers
alike for ever, and one lap later nothing in memory changes any more. -/
def State.walkFuel (s : State) : Nat :=
  Config.memSize * (s.console.input.length + s.console.polls.length + 3)

/-- R128, R130: what follows the walk is the flush; a walk that never ends never completes the step. -/
def afterWalk : Option State → Host.Outcome State Fault Refusal
  | some t => .next t.conFlush
  | none => .fault .endlessString

/-- R128, R130: the walk from the address in R0, then the flush. -/
def State.printString (s : State) (emit : Word → List Byte) : Host.Outcome State Fault Refusal :=
  afterWalk (State.walkString emit s.walkFuel (s.reg .r0) s)

end Sys2Proof.Machine
end

