-- ==== Sys2Proof/Machine/Flags.lean ====
section
/-!
DEFINITION. The condition flags: the update rule (R27), the numeric encoding (R26) and BR's test (R100).
-/

namespace Sys2Proof.Machine

/-- R27: Z if the value is 0, else N if bit 15 is set, else P. -/
def condOf (v : Word) : Cond :=
  if v = 0 then .Z else if v.getLsbD 15 then .N else .P

/-- R27, `setcc(v)`: the previous flag is replaced. -/
def State.setcc (s : State) (v : Word) : State := s.setCond (condOf v)

/-- R28: `x[DR] <- v; setcc(v)`, the last two lines of every flag-setting instruction. -/
def State.writeResult (s : State) (dr : Reg) (v : Word) : State := (s.setReg dr v).setcc v

/-- R26: COND as a 16-bit register, one-hot in bits [2:0]. -/
def condWord : Cond → Word
  | .P => 0x0001#16
  | .Z => 0x0002#16
  | .N => 0x0004#16

/-- R100: the branch is taken when the mask bit of the one flag that is set is 1. -/
def branchTaken (n z p : Bool) : Cond → Bool
  | .N => n
  | .Z => z
  | .P => p

end Sys2Proof.Machine
end

