-- ==== Sys2Proof/Machine/Operands.lean ====
section
/-!
DEFINITION. The operand forms: the effective addresses of the three addressing modes (R110) and the jump targets
(R100, R102). In all of them `s.pc` is the incremented PC (R24) and addition wraps (R41).
-/

namespace Sys2Proof.Machine

/-- R110, PC-relative: `pc +_16 sext_16(pcOffset9)`. Also BR's target (R100) and the value of LEA (R114). -/
def State.pcRel9 (s : State) (off : BitVec 9) : Word := s.pc + sext16 off

/-- R102: `pc +_16 sext_16(pcOffset11)`. -/
def State.pcRel11 (s : State) (off : BitVec 11) : Word := s.pc + sext16 off

/-- R110, base plus offset: `x[BaseR] +_16 sext_16(offset6)`. -/
def State.baseRel (s : State) (base : Reg) (off : BitVec 6) : Word := s.reg base + sext16 off

/-- R110, indirect: the word at the PC-relative address is the address of the operand. The read of the pointer is a
`MemRead` and may poll (R112, R116). -/
def State.indirect (s : State) (off : BitVec 9) : Word × State := s.memRead (s.pcRel9 off)

end Sys2Proof.Machine
end

