-- ==== Sys2Proof/Machine/Control.lean ====
section
/-!
DEFINITION. The control transfers BR, JMP (RET), JSR, JSRR (41_control.md). No delay slot, no alignment, no check of the
target (R104); COND is never written (R28).
-/

namespace Sys2Proof.Machine

/-- R100. -/
def execBr (n z p : Bool) (pcOffset9 : BitVec 9) (s : State) : Host.Outcome State Fault Refusal :=
  .next (s.setPc (if branchTaken n z p s.cond then s.pcRel9 pcOffset9 else s.pc))

/-- R101. -/
def execJmp (baseR : Reg) (s : State) : Host.Outcome State Fault Refusal :=
  .next (s.setPc (s.reg baseR))

/-- R102: R7 gets the incremented PC, then the jump is applied. -/
def execJsr (pcOffset11 : BitVec 11) (s : State) : Host.Outcome State Fault Refusal :=
  .next ((s.setReg .r7 s.pc).setPc (s.pcRel11 pcOffset11))

/-- R103: R7 is written first and the base register is read after it, so `JSRR R7` goes to the next instruction. -/
def execJsrr (baseR : Reg) (s : State) : Host.Outcome State Fault Refusal :=
  .next ((s.setReg .r7 s.pc).setPc ((s.setReg .r7 s.pc).reg baseR))

end Sys2Proof.Machine
end

