-- ==== Sys2Proof/Machine/LoadStore.lean ====
section
/-!
DEFINITION. Loads, stores and LEA (42_load_store.md). Memory is reached only through `memRead`, which polls when the
address is the status port, and `memWrite`, which never does.
-/

namespace Sys2Proof.Machine

/-- R111. -/
def execLd (dr : Reg) (pcOffset9 : BitVec 9) (s : State) : Host.Outcome State Fault Refusal :=
  .next ((s.memRead (s.pcRel9 pcOffset9)).2.writeResult dr (s.memRead (s.pcRel9 pcOffset9)).1)

/-- R112: the pointer is read, then the data; the flags come from the data. -/
def execLdi (dr : Reg) (pcOffset9 : BitVec 9) (s : State) : Host.Outcome State Fault Refusal :=
  .next (((s.indirect pcOffset9).2.memRead (s.indirect pcOffset9).1).2.writeResult dr
    ((s.indirect pcOffset9).2.memRead (s.indirect pcOffset9).1).1)

/-- R113: the base is read before DR is written. -/
def execLdr (dr baseR : Reg) (offset6 : BitVec 6) (s : State) : Host.Outcome State Fault Refusal :=
  .next ((s.memRead (s.baseRel baseR offset6)).2.writeResult dr (s.memRead (s.baseRel baseR offset6)).1)

/-- R114: no memory access, hence no poll; the flags are set from the address. -/
def execLea (dr : Reg) (pcOffset9 : BitVec 9) (s : State) : Host.Outcome State Fault Refusal :=
  .next (s.writeResult dr (s.pcRel9 pcOffset9))

/-- R115. -/
def execSt (sr : Reg) (pcOffset9 : BitVec 9) (s : State) : Host.Outcome State Fault Refusal :=
  .next (s.memWrite (s.pcRel9 pcOffset9) (s.reg sr))

/-- R116: the read of the pointer may poll, the write never does. -/
def execSti (sr : Reg) (pcOffset9 : BitVec 9) (s : State) : Host.Outcome State Fault Refusal :=
  .next ((s.indirect pcOffset9).2.memWrite (s.indirect pcOffset9).1 (s.reg sr))

/-- R117. -/
def execStr (sr baseR : Reg) (offset6 : BitVec 6) (s : State) : Host.Outcome State Fault Refusal :=
  .next (s.memWrite (s.baseRel baseR offset6) (s.reg sr))

end Sys2Proof.Machine
end

