-- ==== Sys2Proof/Machine/Operate.lean ====
section
/-!
DEFINITION. The operate instructions ADD, AND, NOT (40_operate.md). The ALU has three functions (R90); every source is
read before the result is written (R22).
-/

namespace Sys2Proof.Machine

/-- R91. -/
def execAddReg (dr sr1 sr2 : Reg) (s : State) : Host.Outcome State Fault Refusal :=
  .next (s.writeResult dr (s.reg sr1 + s.reg sr2))

/-- R92. -/
def execAddImm (dr sr1 : Reg) (imm5 : BitVec 5) (s : State) : Host.Outcome State Fault Refusal :=
  .next (s.writeResult dr (s.reg sr1 + sext16 imm5))

/-- R93. -/
def execAndReg (dr sr1 sr2 : Reg) (s : State) : Host.Outcome State Fault Refusal :=
  .next (s.writeResult dr (s.reg sr1 &&& s.reg sr2))

/-- R94. -/
def execAndImm (dr sr1 : Reg) (imm5 : BitVec 5) (s : State) : Host.Outcome State Fault Refusal :=
  .next (s.writeResult dr (s.reg sr1 &&& sext16 imm5))

/-- R95. -/
def execNot (dr sr : Reg) (s : State) : Host.Outcome State Fault Refusal :=
  .next (s.writeResult dr (~~~ (s.reg sr)))

end Sys2Proof.Machine
end

