-- ==== Sys2Proof/Machine/Trap.lean ====
section
/-!
DEFINITION. TRAP with its six services and every other vector, and the two fatal opcodes (43_trap.md). A service is
carried out whole inside the one step (R125): no R7, no vector table, no COND (R28).
-/

namespace Sys2Proof.Machine

/-! ### The services, shared by TRAP's dispatch and the service rows -/

/-- R126: all 16 bits of R0 are written. While the read blocks the step has not happened (R159). -/
def State.serviceGetc (s : State) : State :=
  match s.conRead with
  | some r => r.2.setReg .r0 r.1
  | none => s.holdStep

/-- R127. -/
def State.serviceOut (s : State) : State := (s.conWrite [lowByte (s.reg .r0)]).conFlush

/-- R128, D15: the low byte of each word. -/
def putsBytes (w : Word) : List Byte := [lowByte w]

/-- R130: the low byte always, then the high byte if it is not zero. -/
def putspBytes (w : Word) : List Byte :=
  if highByte w = 0 then [lowByte w] else [lowByte w, highByte w]

/-- R129, first part: the prompt and its flush, written once for the step even when the read then blocks (R159). -/
def State.showPrompt (s : State) : State :=
  if s.promptShown then s else (s.conWrite Config.inPrompt).conFlush.setPromptShown true

/-- R129: prompt, flush, read, echo, flush, `x[0] <- c`. -/
def State.serviceIn (s : State) : State :=
  match s.showPrompt.conRead with
  | some r => (((r.2.conWrite [lowByte r.1]).conFlush.setReg .r0 r.1).setPromptShown false)
  | none => s.showPrompt.holdStep

/-- R131: announce, flush, `run <- Halted`. -/
def State.serviceHalt (s : State) : State := (s.conWrite Config.haltMsg).conFlush.setRun .halted

/-! ### The meanings -/

/-- R126. -/
def execTrapGetc (s : State) : Host.Outcome State Fault Refusal := .next s.serviceGetc

/-- R127. -/
def execTrapOut (s : State) : Host.Outcome State Fault Refusal := .next s.serviceOut

/-- R128. -/
def execTrapPuts (s : State) : Host.Outcome State Fault Refusal := s.printString putsBytes

/-- R129. -/
def execTrapIn (s : State) : Host.Outcome State Fault Refusal := .next s.serviceIn

/-- R130. -/
def execTrapPutsp (s : State) : Host.Outcome State Fault Refusal := s.printString putspBytes

/-- R131. -/
def execTrapHalt (s : State) : Host.Outcome State Fault Refusal := .next s.serviceHalt

/-- R125: the vector selects the service; R132: every other vector does nothing, and is no fault. -/
def execTrap (v : BitVec 8) (s : State) : Host.Outcome State Fault Refusal :=
  if v = 0x20#8 then .next s.serviceGetc
  else if v = 0x21#8 then .next s.serviceOut
  else if v = 0x22#8 then s.printString putsBytes
  else if v = 0x23#8 then .next s.serviceIn
  else if v = 0x24#8 then s.printString putspBytes
  else if v = 0x25#8 then .next s.serviceHalt
  else .next s

/-- R133: the word is `1000` and the twelve ignored bits. -/
def execRti (low : BitVec 12) (s : State) : Host.Outcome State Fault Refusal :=
  .next (s.raiseIllegal (0b1000#4 ++ low))

/-- R134: the word is `1101` and the twelve ignored bits. -/
def execRes (low : BitVec 12) (s : State) : Host.Outcome State Fault Refusal :=
  .next (s.raiseIllegal (0b1101#4 ++ low))

end Sys2Proof.Machine
end

