-- ==== Sys2Proof/Machine/Dispatch.lean ====
section
/-!
DEFINITION. The execute phase: one arm for each instruction, one meaning for each arm (R30, R66). The state an arm gets
is the one the fetch leaves, with PC already incremented (R24).
-/

namespace Sys2Proof.Machine

def exec (i : Instr) (s : State) : Host.Outcome State Fault Refusal :=
  match i with
  -- 40_operate.md
  | .addReg dr sr1 sr2 => Sys2Proof.Machine.execAddReg dr sr1 sr2 s
  | .addImm dr sr1 imm5 => Sys2Proof.Machine.execAddImm dr sr1 imm5 s
  | .andReg dr sr1 sr2 => Sys2Proof.Machine.execAndReg dr sr1 sr2 s
  | .andImm dr sr1 imm5 => Sys2Proof.Machine.execAndImm dr sr1 imm5 s
  | .not dr sr => Sys2Proof.Machine.execNot dr sr s
  -- 41_control.md
  | .br n z p off => Sys2Proof.Machine.execBr n z p off s
  | .jmp base => Sys2Proof.Machine.execJmp base s
  | .jsr off => Sys2Proof.Machine.execJsr off s
  | .jsrr base => Sys2Proof.Machine.execJsrr base s
  -- 42_load_store.md
  | .ld dr off => Sys2Proof.Machine.execLd dr off s
  | .ldi dr off => Sys2Proof.Machine.execLdi dr off s
  | .ldr dr base off => Sys2Proof.Machine.execLdr dr base off s
  | .lea dr off => Sys2Proof.Machine.execLea dr off s
  | .st sr off => Sys2Proof.Machine.execSt sr off s
  | .sti sr off => Sys2Proof.Machine.execSti sr off s
  | .str sr base off => Sys2Proof.Machine.execStr sr base off s
  -- 43_trap.md
  | .trap v => Sys2Proof.Machine.execTrap v s
  | .trapGetc => Sys2Proof.Machine.execTrapGetc s
  | .trapOut => Sys2Proof.Machine.execTrapOut s
  | .trapPuts => Sys2Proof.Machine.execTrapPuts s
  | .trapIn => Sys2Proof.Machine.execTrapIn s
  | .trapPutsp => Sys2Proof.Machine.execTrapPutsp s
  | .trapHalt => Sys2Proof.Machine.execTrapHalt s
  | .rti low => Sys2Proof.Machine.execRti low s
  | .res low => Sys2Proof.Machine.execRes low s

end Sys2Proof.Machine
end

