-- ==== Sys2Proof/Machine/Environment.lean ====
section
/-!
DEFINITION. The moves of the host and of the environment, none of them a step of the CORE: loading an image and starting
(70_reset_and_hazards.md R166 to R171), and what happens at the console (R136, R137, R159).
-/

namespace Sys2Proof.Machine

/-! ### Image load and start -/

/-- Why a load is not a successful load. -/
inductive LoadError where
  /-- R170: no complete origin word, `LoadError::Truncated`. -/
  | truncated
  /-- R58, R166: the host loads before the start and never after it. -/
  | alreadyStarted
deriving DecidableEq, Repr

/-- R167: the big-endian 16-bit words of a file; a trailing odd byte is ignored (R168). -/
def imageWords : List Byte → List Word
  | hi :: lo :: rest => bigEndianWord hi lo :: imageWords rest
  | _ => []

/-- R168: plain writes at rising addresses; a word that would fall beyond 0xFFFF is dropped and never wraps. -/
def State.storeWords (s : State) (a : Nat) : List Word → State
  | [] => s
  | w :: ws =>
    if a < Config.memSize then (s.memWrite (BitVec.ofNat 16 a) w).storeWords (a + 1) ws else s

/-- R168, `LoadImage`: the first word is the origin, the rest goes into memory from there. Registers, PC, COND and the
console stay (R169). -/
def State.loadImage (s : State) (bytes : List Byte) : Except LoadError State :=
  if s.run = .ready then
    match imageWords bytes with
    | [] => .error .truncated
    | origin :: ws => .ok (s.storeWords origin.toNat ws)
  else .error .alreadyStarted

/-- R171: `run <- Running`, with everything else as reset and the loads left it. -/
def State.start (s : State) : State := s.setRun .running

/-! ### The console's side -/

/-- R159: a character arrives. -/
def State.charArrives (s : State) (b : Byte) : State :=
  s.setConsole { s.console with input := s.console.input ++ [b] }

/-- R137, R159: the input ends, or the console becomes unavailable. No move takes this back: the spec does not say whether a
console that was unavailable can become available again, so that reads block again, and the model lets it not (DESIGN
CHOICE, unsafe, assumption 20). -/
def State.inputEnds (s : State) : State := s.setConsole { s.console with ended := true }

/-- R136: the environment decides how it will answer the coming polls. -/
def State.pollsDecided (s : State) (polls : List Bool) (rest : Bool) : State :=
  s.setConsole { s.console with polls := polls, pollRest := rest }

end Sys2Proof.Machine
end

