-- ==== Sys2Proof/Machine/Step.lean ====
section
/-!
DEFINITION. One step of the CORE (R30): fetch, increment, decode, execute, the whole of one instruction (R9).
-/

namespace Sys2Proof.Machine

/-- R30. Before the start the next thing that happens is the start (R171, assumption 8); when `run` is `Halted` or
`Fault(...)` the CORE takes no further step. -/
def step (s : State) : Host.Outcome State Fault Refusal :=
  match s.run with
  | .ready => .next s.start
  | .running => exec (decode s.fetch.1) s.fetch.2
  | .halted => .fault .coreHalted
  | .faulted a ir => .fault (.coreFaulted a ir)

/-- `s` with the 16-bit word `w` where `step` fetches next, and everything that takes: the CORE is running, no trap IN is
held, and PC is not the status port, where no stored word can be fetched (R45). -/
def State.withFetchWord (s : State) (_nbits w : Nat) : State :=
  let t := if s.pc = Config.kbsr then s.setPc Config.pcReset else s
  ((t.memWrite t.pc (BitVec.ofNat 16 w)).setRun .running).setPromptShown false

end Sys2Proof.Machine
end

