-- ==== Sys2Proof/Safety.lean ====
section
/-!
DEFINITION. The words claims are stated in: how a run ends (R12, R160), the invariant of the model, what counts as a safe
run, and the spec's tables about whole instructions (R22, R28, R38, R42), written from the tables and not from the
meanings.
-/

namespace Sys2Proof.Machine

/-! ### How a run ends -/

/-- R160: a run has ended when `run` is `Halted` or `Fault(...)`. -/
def State.ended (s : State) : Prop := s.run = .halted ∨ ∃ a ir, s.run = .faulted a ir

/-- R68: the illegal words, 0x8000..0x8FFF and 0xD000..0xDFFF. -/
def illegalWord (w : Word) : Prop :=
  (0x8000 ≤ w.toNat ∧ w.toNat ≤ 0x8FFF) ∨ (0xD000 ≤ w.toNat ∧ w.toNat ≤ 0xDFFF)

/-- A safe run from `s`: however many steps it takes, it never reaches the fault of R146. -/
def State.safeRun (s : State) : Prop :=
  ∀ n t, Host.Core.run Sys2Proof.core n s = .next t → ∀ a ir, t.run ≠ .faulted a ir

/-! ### The invariant -/

/-- A trap IN is held in its read only while the CORE is running and PC stands at that IN (R159). -/
def State.holdOk (s : State) : Prop :=
  s.promptShown = true → s.run = .running ∧ s.pc ≠ Config.kbsr ∧ decode (s.cell s.pc) = .trapIn

/-- The invariant: memory is in its canonical form, and a held read is a read at PC. -/
def State.Inv (s : State) : Prop := s.mem.wf ∧ s.holdOk

/-! ### Frames -/

/-- Every general register is the same. -/
def RegsSame (s t : State) : Prop := ∀ r, t.reg r = s.reg r

/-- Every general register but `q` is the same. -/
def RegsSameBut (q : Reg) (s t : State) : Prop := ∀ r, r ≠ q → t.reg r = s.reg r

/-- Every cell of memory is the same. -/
def CellsSame (s t : State) : Prop := ∀ x, t.cell x = s.cell x

/-- Every cell of memory but the one at `a` is the same. -/
def CellsSameBut (a : Word) (s t : State) : Prop := ∀ x, x ≠ a → t.cell x = s.cell x

/-- R27, spelled out: `c` is the flag of the value `v`. -/
def FlagOf (v : Word) (c : Cond) : Prop :=
  (v.toNat = 0 → c = .Z) ∧ (0x8000 ≤ v.toNat → c = .N) ∧ (1 ≤ v.toNat → v.toNat ≤ 0x7FFF → c = .P)

/-- What an instruction that writes `v` to `dr` and sets the flags from it leaves (R28), when it touches nothing else:
the other registers, PC, the run state, the held read, every cell and the console stay. -/
def WritesOnly (s t : State) (dr : Reg) (v : Word) : Prop :=
  t.reg dr = v ∧ RegsSameBut dr s t ∧ FlagOf v t.cond ∧ t.pc = s.pc ∧ t.run = s.run ∧
    t.promptShown = s.promptShown ∧ CellsSame s t ∧ t.console = s.console

/-- What an instruction that only transfers control leaves: PC is `p` and everything else stays. -/
def JumpsOnly (s t : State) (p : Word) : Prop :=
  t.pc = p ∧ RegsSame s t ∧ t.cond = s.cond ∧ t.run = s.run ∧ t.promptShown = s.promptShown ∧
    CellsSame s t ∧ t.console = s.console

/-- What a store of `v` at `a` leaves: that cell is `v` and everything else stays. -/
def StoresOnly (s t : State) (a v : Word) : Prop :=
  t.cell a = v ∧ CellsSameBut a s t ∧ RegsSame s t ∧ t.pc = s.pc ∧ t.cond = s.cond ∧ t.run = s.run ∧
    t.promptShown = s.promptShown ∧ t.console = s.console

/-- What a trap service that only writes to the console leaves: the output has grown by `out` and everything else
stays. -/
def WritesConsoleOnly (s t : State) (out : List ConsoleOut) : Prop :=
  t.console = { s.console with output := s.console.output ++ out } ∧ RegsSame s t ∧ t.pc = s.pc ∧
    t.cond = s.cond ∧ t.run = s.run ∧ t.promptShown = s.promptShown ∧ CellsSame s t

/-! ### The tables about whole instructions -/

/-- R22: the general registers an instruction writes. -/
def writtenRegs : Instr → List Reg
  | .addReg dr _ _ | .addImm dr _ _ | .andReg dr _ _ | .andImm dr _ _ | .not dr _ => [dr]
  | .ld dr _ | .ldi dr _ | .ldr dr _ _ | .lea dr _ => [dr]
  | .jsr _ | .jsrr _ => [.r7]
  | .trapGetc | .trapIn => [.r0]
  | .br _ _ _ _ | .jmp _ | .st _ _ | .sti _ _ | .str _ _ _ => []
  | .trap _ | .trapOut | .trapPuts | .trapPutsp | .trapHalt => []
  | .rti _ | .res _ => []

/-- R28: the register whose new value sets COND, for the instructions that write COND. -/
def flagReg : Instr → Option Reg
  | .addReg dr _ _ | .addImm dr _ _ | .andReg dr _ _ | .andImm dr _ _ | .not dr _ => some dr
  | .ld dr _ | .ldi dr _ | .ldr dr _ _ | .lea dr _ => some dr
  | .br _ _ _ _ | .jmp _ | .jsr _ | .jsrr _ | .st _ _ | .sti _ _ | .str _ _ _ => none
  | .trap _ | .trapGetc | .trapOut | .trapPuts | .trapIn | .trapPutsp | .trapHalt => none
  | .rti _ | .res _ => none

/-- R159: the instruction is a read of the console that blocks. -/
def blockedRead (i : Instr) (s : State) : Prop :=
  (i = .trapGetc ∨ i = .trapIn) ∧ s.console.input = [] ∧ s.console.ended = false

/-- R38: PC at the end of the step of an instruction fetched from `a`, `s` being the state after the fetch. -/
def pcAtEnd (i : Instr) (a : Word) (s : State) : Word :=
  match i with
  | .br n z p off =>
    if (n ∧ s.cond = .N) ∨ (z ∧ s.cond = .Z) ∨ (p ∧ s.cond = .P) then a + 1 + off.signExtend 16 else a + 1
  | .jmp base => s.reg base
  | .jsr off => a + 1 + off.signExtend 16
  | .jsrr base => if base = .r7 then a + 1 else s.reg base
  | .addReg _ _ _ | .addImm _ _ _ | .andReg _ _ _ | .andImm _ _ _ | .not _ _ => a + 1
  | .ld _ _ | .ldi _ _ | .ldr _ _ _ | .lea _ _ | .st _ _ | .sti _ _ | .str _ _ _ => a + 1
  | .trap _ | .trapGetc | .trapOut | .trapPuts | .trapIn | .trapPutsp | .trapHalt => a + 1
  | .rti _ | .res _ => a + 1

/-- R42: the address an instruction stores to, with the effective addresses of R110. -/
def storeAddress (i : Instr) (s : State) : Option Word :=
  match i with
  | .st _ off => some (s.pcRel9 off)
  | .sti _ off => some (s.indirect off).1
  | .str _ base off => some (s.baseRel base off)
  | .addReg _ _ _ | .addImm _ _ _ | .andReg _ _ _ | .andImm _ _ _ | .not _ _ => none
  | .br _ _ _ _ | .jmp _ | .jsr _ | .jsrr _ => none
  | .ld _ _ | .ldi _ _ | .ldr _ _ _ | .lea _ _ => none
  | .trap _ | .trapGetc | .trapOut | .trapPuts | .trapIn | .trapPutsp | .trapHalt => none
  | .rti _ | .res _ => none

/-- R42: the instruction makes reads of its own, besides its fetch. -/
def readsMemory : Instr → Bool
  | .ld _ _ | .ldi _ _ | .ldr _ _ _ | .sti _ _ | .trapPuts | .trapPutsp => true
  | .addReg _ _ _ | .addImm _ _ _ | .andReg _ _ _ | .andImm _ _ _ | .not _ _ => false
  | .br _ _ _ _ | .jmp _ | .jsr _ | .jsrr _ | .lea _ _ | .st _ _ | .str _ _ _ => false
  | .trap _ | .trapGetc | .trapOut | .trapIn | .trapHalt => false
  | .rti _ | .res _ => false

/-- R67: the bits of a word the decoder looks at, for each instruction; the others are ignored. -/
def significantBits : Instr → Word
  | .addReg _ _ _ | .andReg _ _ _ => 0xFFE7#16
  | .not _ _ => 0xFFC0#16
  | .jmp _ => 0xF1C0#16
  | .jsrr _ => 0xF9C0#16
  | .trap _ | .trapGetc | .trapOut | .trapPuts | .trapIn | .trapPutsp | .trapHalt => 0xF0FF#16
  | .addImm _ _ _ | .andImm _ _ _ | .br _ _ _ _ | .jsr _ => 0xFFFF#16
  | .ld _ _ | .ldi _ _ | .ldr _ _ _ | .lea _ _ | .st _ _ | .sti _ _ | .str _ _ _ => 0xFFFF#16
  | .rti _ | .res _ => 0xFFFF#16

/-! ### Strings in memory (R128, R130) -/

/-- From `p` upward memory holds the nonzero words `ws`, none of them at the status port. -/
def WordsAt (s : State) (p : Word) (ws : List Word) : Prop :=
  ∀ i, i < ws.length → p + BitVec.ofNat 16 i ≠ Config.kbsr ∧
    s.cell (p + BitVec.ofNat 16 i) = ws.getD i 0 ∧ ws.getD i 0 ≠ 0

/-- R128: what PUTS writes for a word, its low byte. -/
def lowByteOf (w : Word) : List Byte := [BitVec.ofNat 8 (w.toNat % 256)]

/-- R130: what PUTSP writes for a word, its low byte and then its high byte if that is not zero. -/
def bothBytesOf (w : Word) : List Byte :=
  if w.toNat / 256 = 0 then [BitVec.ofNat 8 (w.toNat % 256)]
  else [BitVec.ofNat 8 (w.toNat % 256), BitVec.ofNat 8 (w.toNat / 256)]

/-! ### The console's past (R138, R139) -/

/-- The same state with `pre` written to the console before everything else. -/
def State.withEarlierOutput (s : State) (pre : List ConsoleOut) : State :=
  s.setConsole { s.console with output := pre ++ s.console.output }

/-- An outcome with its next state changed. -/
def onNext (f : State → State) : Host.Outcome State Fault Refusal → Host.Outcome State Fault Refusal
  | .next t => .next (f t)
  | .fault r => .fault r
  | .refused r => .refused r

end Sys2Proof.Machine
end

