-- ==== Sys2Proof/Certificates/Slice0/Obligations.lean ====
section
/-!
DEFINITION. The statements for the provers. A statement about an instruction is about `exec i s`, where `s` is the state
the fetch leaves (PC incremented, R24), and says of the next state what the instruction writes and, as its frame, that
everything else stays. A decode clause writes the word as the rule's own "Encoding" line does; opcode values and field
positions all come from the spec's decision D1 (R62, R66), and which bits are ignored from its decision D7 (R67). Where a
statement rests on another decision of the spec or on a choice of the model, its docstring names it.
-/

open Sys2Proof Sys2Proof.Machine

/-! ### Encoding (30_encoding.md) -/

/-- The encoder loses no bit of any operand: decoding an encoded well-formed instruction gives it back. -/
def Obligations.DecodeOfEncodeIsTheInstruction : Prop :=
  ∀ i : Instr, i.wellFormed = true → decode (encode i) = i

/-- R67: two words that differ only in bits the form ignores are the same instruction. (Which bits those are is the
spec's decision D7 on the positions of D1.) -/
def Obligations.IgnoredBitsNeverMatter : Prop :=
  ∀ w w' : Word, w &&& significantBits (decode w) = w' &&& significantBits (decode w) → decode w' = decode w

/-- R70: every word is an instruction, and one the model counts as well formed; and encoding it gives back every bit
that is not ignored. -/
def Obligations.EveryWordIsAnInstruction : Prop :=
  ∀ w : Word, (decode w).wellFormed = true ∧
    encode (decode w) &&& significantBits (decode w) = w &&& significantBits (decode w)

/-- R68: exactly the words 0x8000..0x8FFF and 0xD000..0xDFFF are the two fatal opcodes, with all their bits kept. -/
def Obligations.IllegalWordsAreOpcodes8And13 : Prop :=
  (∀ w : Word, illegalWord w ↔ ((∃ x, decode w = .rti x) ∨ (∃ x, decode w = .res x))) ∧
  (∀ (w : Word) (x : BitVec 12), decode w = .rti x → w = 0b1000#4 ++ x) ∧
  (∀ (w : Word) (x : BitVec 12), decode w = .res x → w = 0b1101#4 ++ x)

/-- Words of the spec's test vectors (95_test_vectors.md V2 to V8), one or two of each family, decode to the instruction
they stand for. -/
def Obligations.SampleWordsDecode : Prop :=
  decode 0x1401#16 = .addReg .r2 .r0 .r1 ∧ decode 0x165A#16 = .addReg .r3 .r1 .r2 ∧
  decode 0x127F#16 = .addImm .r1 .r1 0x1F#5 ∧ decode 0x5BAF#16 = .andImm .r5 .r6 0x0F#5 ∧
  decode 0x997F#16 = .not .r4 .r5 ∧ decode 0x0403#16 = .br false true false 0x003#9 ∧
  decode 0xCEFF#16 = .jmp .r3 ∧ decode 0x4C00#16 = .jsr 0x400#11 ∧ decode 0x46BF#16 = .jsrr .r2 ∧
  decode 0xA009#16 = .ldi .r0 0x009#9 ∧ decode 0x62BF#16 = .ldr .r1 .r2 0x3F#6 ∧
  decode 0x37FE#16 = .st .r3 0x1FE#9 ∧ decode 0xFA21#16 = .trapOut ∧ decode 0xF0FF#16 = .trap 0xFF#8 ∧
  decode 0x8FFF#16 = .rti 0xFFF#12 ∧ decode 0xDABC#16 = .res 0xABC#12

/-- R69: the words that execute as no-operations change nothing but PC, which keeps its incremented value: BR with mask
000, BR with offset 0, and TRAP with a vector outside 0x20..0x25. -/
def Obligations.NoOperationWordsChangeNothing : Prop :=
  (∀ (off : BitVec 9) (s : State), exec (decode (0b0000#4 ++ 0b000#3 ++ off)) s = .next s) ∧
  (∀ (mask : BitVec 3) (s : State), exec (decode (0b0000#4 ++ mask ++ 0#9)) s = .next s) ∧
  (∀ (x : BitVec 4) (v : BitVec 8) (s : State), v.toNat < 0x20 ∨ 0x25 < v.toNat →
    exec (decode (0b1111#4 ++ x ++ v)) s = .next s)

/-! ### Operate instructions (40_operate.md) -/

/-- R91. -/
def Obligations.AddRegisterForm : Prop :=
  ∀ (dr sr1 sr2 : Reg) (x : BitVec 2) (s : State),
    decode (0b0001#4 ++ dr.toBits ++ sr1.toBits ++ 0b0#1 ++ x ++ sr2.toBits) = .addReg dr sr1 sr2 ∧
    ∃ t v, exec (.addReg dr sr1 sr2) s = .next t ∧
      v.toNat = ((s.reg sr1).toNat + (s.reg sr2).toNat) % 65536 ∧ WritesOnly s t dr v

/-- R92. -/
def Obligations.AddImmediateForm : Prop :=
  ∀ (dr sr1 : Reg) (imm5 : BitVec 5) (s : State),
    decode (0b0001#4 ++ dr.toBits ++ sr1.toBits ++ 0b1#1 ++ imm5) = .addImm dr sr1 imm5 ∧
    ∃ t v, exec (.addImm dr sr1 imm5) s = .next t ∧
      v.toNat = ((s.reg sr1).toNat + (sext16 imm5).toNat) % 65536 ∧ WritesOnly s t dr v

/-- R93. -/
def Obligations.AndRegisterForm : Prop :=
  ∀ (dr sr1 sr2 : Reg) (x : BitVec 2) (s : State),
    decode (0b0101#4 ++ dr.toBits ++ sr1.toBits ++ 0b0#1 ++ x ++ sr2.toBits) = .andReg dr sr1 sr2 ∧
    ∃ t v, exec (.andReg dr sr1 sr2) s = .next t ∧
      (∀ i, i < 16 → v.getLsbD i = ((s.reg sr1).getLsbD i && (s.reg sr2).getLsbD i)) ∧ WritesOnly s t dr v

/-- R94. -/
def Obligations.AndImmediateForm : Prop :=
  ∀ (dr sr1 : Reg) (imm5 : BitVec 5) (s : State),
    decode (0b0101#4 ++ dr.toBits ++ sr1.toBits ++ 0b1#1 ++ imm5) = .andImm dr sr1 imm5 ∧
    ∃ t v, exec (.andImm dr sr1 imm5) s = .next t ∧
      (∀ i, i < 16 → v.getLsbD i = ((s.reg sr1).getLsbD i && (sext16 imm5).getLsbD i)) ∧ WritesOnly s t dr v

/-- R95. -/
def Obligations.NotIsTheComplement : Prop :=
  ∀ (dr sr : Reg) (x : BitVec 6) (s : State),
    decode (0b1001#4 ++ dr.toBits ++ sr.toBits ++ x) = .not dr sr ∧
    ∃ t v, exec (.not dr sr) s = .next t ∧ v.toNat = 65535 - (s.reg sr).toNat ∧ WritesOnly s t dr v

/-- R98: the two forms of ADD, and of AND, agree when the register operand equals the immediate value: the whole next
state is the same. -/
def Obligations.ImmediateAndRegisterFormsAgree : Prop :=
  ∀ (dr sr1 sr2 : Reg) (imm5 : BitVec 5) (s : State), s.reg sr2 = sext16 imm5 →
    exec (.addReg dr sr1 sr2) s = exec (.addImm dr sr1 imm5) s ∧
    exec (.andReg dr sr1 sr2) s = exec (.andImm dr sr1 imm5) s

/-- R64: at each of the widths 5, 6, 9, 11, a field whose top bit is 0 is itself, and one whose top bit is 1 is itself
plus 65536 - 2^N; and the low N bits of the result are the field. -/
def Obligations.SignExtensionAtEveryWidth : Prop :=
  ∀ n, n = 5 ∨ n = 6 ∨ n = 9 ∨ n = 11 → ∀ f : BitVec n,
    (sext16 f).toNat = (if f.getLsbD (n - 1) then f.toNat + (65536 - 2 ^ n) else f.toNat) ∧
    (sext16 f).extractLsb' 0 n = f

/-! ### Flags (10_state.md) -/

/-- R27: the flag after `setcc(v)` is the flag of `v`, whatever it was, and nothing else changes. -/
def Obligations.FlagUpdateRule : Prop :=
  ∀ (s : State) (v : Word), FlagOf v (s.setcc v).cond ∧ JumpsOnly (s.setCond (s.setcc v).cond) (s.setcc v) s.pc

/-- R26, R100: with P, Z, N encoded as bits 0, 1, 2, the branch is taken exactly when condition mask AND flag is not
zero; exactly one bit is set in COND. (Encoding and pairing are the spec's decision D2.) -/
def Obligations.BranchTestIsMaskAndCond : Prop :=
  ∀ (n z p : Bool) (c : Cond),
    (branchTaken n z p c = true ↔
      (BitVec.ofBool n ++ BitVec.ofBool z ++ BitVec.ofBool p : BitVec 3) &&& (condWord c).extractLsb' 0 3 ≠ 0) ∧
    (condWord c = 1 ∨ condWord c = 2 ∨ condWord c = 4)

/-! ### Control transfer (41_control.md) -/

/-- R100. (Which mask bit pairs with which flag is the spec's decision D2.) -/
def Obligations.BranchIsConditional : Prop :=
  ∀ (n z p : Bool) (off : BitVec 9) (s : State),
    decode (0b0000#4 ++ BitVec.ofBool n ++ BitVec.ofBool z ++ BitVec.ofBool p ++ off) = .br n z p off ∧
    ∃ t, exec (.br n z p off) s = .next t ∧
      JumpsOnly s t (if (n ∧ s.cond = .N) ∨ (z ∧ s.cond = .Z) ∨ (p ∧ s.cond = .P)
        then s.pc + sext16 off else s.pc)

/-- R101. -/
def Obligations.JumpGoesToTheBaseRegister : Prop :=
  ∀ (base : Reg) (x : BitVec 3) (y : BitVec 6) (s : State),
    decode (0b1100#4 ++ x ++ base.toBits ++ y) = .jmp base ∧
    ∃ t, exec (.jmp base) s = .next t ∧ JumpsOnly s t (s.reg base)

/-- R102: R7 gets the address after the JSR, PC the target; nothing else changes. -/
def Obligations.JumpToSubroutineRelative : Prop :=
  ∀ (off : BitVec 11) (s : State),
    decode (0b0100#4 ++ 0b1#1 ++ off) = .jsr off ∧
    ∃ t, exec (.jsr off) s = .next t ∧ t.reg .r7 = s.pc ∧ RegsSameBut .r7 s t ∧ t.pc = s.pc + sext16 off ∧
      t.cond = s.cond ∧ t.run = s.run ∧ t.promptShown = s.promptShown ∧ CellsSame s t ∧ t.console = s.console

/-- R103: R7 is written before the base register is read, so `JSRR R7` goes on at the next instruction. (The order is
the spec's decision D9.) -/
def Obligations.JumpToSubroutineThroughRegister : Prop :=
  ∀ (base : Reg) (x : BitVec 2) (y : BitVec 6) (s : State),
    decode (0b0100#4 ++ 0b0#1 ++ x ++ base.toBits ++ y) = .jsrr base ∧
    ∃ t, exec (.jsrr base) s = .next t ∧ t.reg .r7 = s.pc ∧ RegsSameBut .r7 s t ∧
      t.pc = (if base = .r7 then s.pc else s.reg base) ∧
      t.cond = s.cond ∧ t.run = s.run ∧ t.promptShown = s.promptShown ∧ CellsSame s t ∧ t.console = s.console

/-! ### Loads, LEA, stores (42_load_store.md) -/

/-- R111. The read is the read primitive of R43: at any address but the status port it gives the cell and nothing else
happens; at the status port it polls first. -/
def Obligations.LoadPcRelative : Prop :=
  ∀ (dr : Reg) (off : BitVec 9) (s : State),
    decode (0b0010#4 ++ dr.toBits ++ off) = .ld dr off ∧
    ∃ t, exec (.ld dr off) s = .next t ∧
      WritesOnly (s.memRead (s.pc + sext16 off)).2 t dr (s.memRead (s.pc + sext16 off)).1 ∧
      (s.pc + sext16 off ≠ Config.kbsr → WritesOnly s t dr (s.cell (s.pc + sext16 off))) ∧
      RegsSameBut dr s t ∧ t.pc = s.pc ∧ t.run = s.run ∧ t.promptShown = s.promptShown ∧
      t.console.output = s.console.output ∧
      ∀ x, x ≠ Config.kbsr → x ≠ Config.kbdr → t.cell x = s.cell x

/-- R112: the pointer is read, then the data, both with the read primitive; the flags come from the data. -/
def Obligations.LoadIndirect : Prop :=
  ∀ (dr : Reg) (off : BitVec 9) (s : State),
    decode (0b1010#4 ++ dr.toBits ++ off) = .ldi dr off ∧
    ∃ t, exec (.ldi dr off) s = .next t ∧
      (let pointer := s.memRead (s.pc + sext16 off)
       let data := pointer.2.memRead pointer.1
       WritesOnly data.2 t dr data.1) ∧
      (s.pc + sext16 off ≠ Config.kbsr → s.cell (s.pc + sext16 off) ≠ Config.kbsr →
        WritesOnly s t dr (s.cell (s.cell (s.pc + sext16 off)))) ∧
      RegsSameBut dr s t ∧ t.pc = s.pc ∧ t.run = s.run ∧ t.promptShown = s.promptShown ∧
      t.console.output = s.console.output ∧
      ∀ x, x ≠ Config.kbsr → x ≠ Config.kbdr → t.cell x = s.cell x

/-- R113: the address uses the old base register, also when DR is the base register. -/
def Obligations.LoadBasePlusOffset : Prop :=
  ∀ (dr base : Reg) (off : BitVec 6) (s : State),
    decode (0b0110#4 ++ dr.toBits ++ base.toBits ++ off) = .ldr dr base off ∧
    ∃ t, exec (.ldr dr base off) s = .next t ∧
      WritesOnly (s.memRead (s.reg base + sext16 off)).2 t dr (s.memRead (s.reg base + sext16 off)).1 ∧
      (s.reg base + sext16 off ≠ Config.kbsr → WritesOnly s t dr (s.cell (s.reg base + sext16 off))) ∧
      RegsSameBut dr s t ∧ t.pc = s.pc ∧ t.run = s.run ∧ t.promptShown = s.promptShown ∧
      t.console.output = s.console.output ∧
      ∀ x, x ≠ Config.kbsr → x ≠ Config.kbdr → t.cell x = s.cell x

/-- R114: the flags are set from the address, and no memory is read, so there is no poll even at 0xFE00. -/
def Obligations.LoadEffectiveAddress : Prop :=
  ∀ (dr : Reg) (off : BitVec 9) (s : State),
    decode (0b1110#4 ++ dr.toBits ++ off) = .lea dr off ∧
    ∃ t, exec (.lea dr off) s = .next t ∧ WritesOnly s t dr (s.pc + sext16 off)

/-- R115. -/
def Obligations.StorePcRelative : Prop :=
  ∀ (sr : Reg) (off : BitVec 9) (s : State),
    decode (0b0011#4 ++ sr.toBits ++ off) = .st sr off ∧
    ∃ t, exec (.st sr off) s = .next t ∧ StoresOnly s t (s.pc + sext16 off) (s.reg sr)

/-- R116: the pointer is read with the read primitive, the write never polls. -/
def Obligations.StoreIndirect : Prop :=
  ∀ (sr : Reg) (off : BitVec 9) (s : State),
    decode (0b1011#4 ++ sr.toBits ++ off) = .sti sr off ∧
    ∃ t, exec (.sti sr off) s = .next t ∧
      (let pointer := s.memRead (s.pc + sext16 off)
       StoresOnly pointer.2 t pointer.1 (s.reg sr) ∧
       ∀ x, x ≠ pointer.1 → x ≠ Config.kbsr → x ≠ Config.kbdr → t.cell x = s.cell x) ∧
      (s.pc + sext16 off ≠ Config.kbsr → StoresOnly s t (s.cell (s.pc + sext16 off)) (s.reg sr)) ∧
      RegsSame s t ∧ t.pc = s.pc ∧ t.cond = s.cond ∧ t.run = s.run ∧ t.promptShown = s.promptShown ∧
      t.console.output = s.console.output

/-- R117. -/
def Obligations.StoreBasePlusOffset : Prop :=
  ∀ (sr base : Reg) (off : BitVec 6) (s : State),
    decode (0b0111#4 ++ sr.toBits ++ base.toBits ++ off) = .str sr base off ∧
    ∃ t, exec (.str sr base off) s = .next t ∧ StoresOnly s t (s.reg base + sext16 off) (s.reg sr)

/-! ### Memory and the keyboard ports (20_memory.md) -/

/-- R43, R45: a read of the status port polls. Input pending: it returns 0x8000, and the next character is in the data
port and no longer in the input. None pending: it returns 0 and leaves the data port. A read of any other address returns
the cell and changes nothing. (That the ready value is 0x8000 is the spec's decision D6.) -/
def Obligations.ReadPollsTheStatusPort : Prop :=
  ∀ s : State,
    (s.console.poll.1 = true →
      (s.memRead 0xFE00#16).1 = 0x8000#16 ∧ (s.memRead 0xFE00#16).2.cell 0xFE00#16 = 0x8000#16 ∧
      ∃ v t, s.conRead = some (v, t) ∧ (s.memRead 0xFE00#16).2.cell 0xFE02#16 = v ∧
        (s.memRead 0xFE00#16).2.console.input = t.console.input) ∧
    (s.console.poll.1 = false →
      (s.memRead 0xFE00#16).1 = 0 ∧ (s.memRead 0xFE00#16).2.cell 0xFE00#16 = 0 ∧
      (s.memRead 0xFE00#16).2.cell 0xFE02#16 = s.cell 0xFE02#16 ∧
      (s.memRead 0xFE00#16).2.console.input = s.console.input) ∧
    (∀ x, x ≠ 0xFE00#16 → x ≠ 0xFE02#16 → (s.memRead 0xFE00#16).2.cell x = s.cell x) ∧
    (∀ a, RegsSame s (s.memRead a).2 ∧ (s.memRead a).2.pc = s.pc ∧ (s.memRead a).2.cond = s.cond ∧
      (s.memRead a).2.run = s.run ∧ (s.memRead a).2.promptShown = s.promptShown ∧
      (s.memRead a).2.console.output = s.console.output) ∧
    (∀ a, a ≠ 0xFE00#16 → s.memRead a = (s.cell a, s))

/-- R44, R52: a store changes the one cell, with no poll and no console operation, at every address, the ports included;
a later read of any address but the status port gives the value of the most recent store. -/
def Obligations.StoreThenRead : Prop :=
  ∀ (s : State) (a v : Word), StoresOnly s (s.memWrite a v) a v ∧
    ∀ b, b ≠ 0xFE00#16 → ((s.memWrite a v).memRead b).1 = if b = a then v else (s.memRead b).1

/-- R56: an instruction stored at the next address is the one fetched next. -/
def Obligations.StoreIsSeenByTheNextFetch : Prop :=
  ∀ (sr : Reg) (off : BitVec 9) (s : State), s.run = .running → s.pc ≠ 0xFE00#16 →
    s.cell s.pc = encode (.st sr off) → s.pc + 1 ≠ 0xFE00#16 → s.pc + 1 + sext16 off = s.pc + 1 →
    ∃ t, step s = .next t ∧ step t = exec (decode (s.reg sr)) (t.setPc (s.pc + 2))

/-! ### Console (43_trap.md) -/

/-- R136: a poll answers true only if a read would not block; it takes no character; and where a read would not block
both answers are possible. (That the environment's answers stand in the state is the model's form, assumption 9.) -/
def Obligations.PollAnswersAreFree : Prop :=
  ∀ s : State,
    (s.console.poll.1 = true → s.conRead.isSome = true) ∧
    s.console.poll.2.input = s.console.input ∧ s.console.poll.2.ended = s.console.ended ∧
    s.console.poll.2.output = s.console.output ∧
    (s.conRead.isSome = true → ∀ answer : Bool, ∃ polls rest,
      (s.pollsDecided polls rest).console.poll.1 = answer)

/-- R137: a read takes the next character, zero-extended; when the input has ended it delivers EOF_SENTINEL; otherwise it
blocks. -/
def Obligations.ConsoleReadDelivers : Prop :=
  ∀ s : State,
    (∀ b rest, s.console.input = b :: rest → ∃ v, v.toNat = b.toNat ∧
      s.conRead = some (v, s.setConsole { s.console with input := rest })) ∧
    (s.console.input = [] → s.console.ended = true → s.conRead = some (Config.eofSentinel, s)) ∧
    (s.console.input = [] → s.console.ended = false → s.conRead = none)

/-! ### TRAP (43_trap.md) -/

/-- R126: GETC puts the next character, or EOF_SENTINEL, in all 16 bits of R0 and changes nothing else, COND included.
(Zero extension is the spec's decision D19, that TRAP leaves R7 is its decision D8.) -/
def Obligations.GetcReadsOneCharacter : Prop :=
  ∀ (x : BitVec 4) (s : State),
    decode (0b1111#4 ++ x ++ 0x20#8) = .trapGetc ∧
    (s.console.input ≠ [] ∨ s.console.ended = true →
      ∃ t, exec .trapGetc s = .next t ∧
        (∀ b rest, s.console.input = b :: rest → (t.reg .r0).toNat = b.toNat) ∧
        (s.console.input = [] → t.reg .r0 = Config.eofSentinel) ∧
        t.console = { s.console with input := s.console.input.tail } ∧
        RegsSameBut .r0 s t ∧ t.pc = s.pc ∧ t.cond = s.cond ∧ t.run = s.run ∧
        t.promptShown = s.promptShown ∧ CellsSame s t)

/-- R127: OUT writes the low byte of R0 and flushes. -/
def Obligations.OutWritesTheLowByte : Prop :=
  ∀ (x : BitVec 4) (s : State),
    decode (0b1111#4 ++ x ++ 0x21#8) = .trapOut ∧
    ∃ t, exec .trapOut s = .next t ∧
      WritesConsoleOnly s t [.byte (BitVec.ofNat 8 ((s.reg .r0).toNat % 256)), .flush]

/-- R128: PUTS writes the low byte of each word from the address in R0 up to the first zero word, wherever that is, wraps
included, then flushes. A walk that reaches the status port with nothing pending ends there. One that reaches it with a
character pending writes the byte 0x00 for the word 0x8000 the poll leaves there, has moved the character to 0xFE02, and
goes on at 0xFE01: it does what PUTS from 0xFE01 does in the state so left, but for R0, which keeps the start address.
(Low byte and whole-word test are the spec's decision D15, the ready value 0x8000 is its decision D6. One answer of the
environment used up by the poll is the model's form, assumption 9; that no poll of the rest of the walk delivers a character
after one has delivered EOF_SENTINEL is its choice, assumption 21.) -/
def Obligations.PutsWritesTheString : Prop :=
  (∀ x : BitVec 4, decode (0b1111#4 ++ x ++ 0x22#8) = .trapPuts) ∧
  (∀ (s : State) (ws : List Word), WordsAt s (s.reg .r0) ws →
    s.reg .r0 + BitVec.ofNat 16 ws.length ≠ 0xFE00#16 → s.cell (s.reg .r0 + BitVec.ofNat 16 ws.length) = 0 →
    ∃ t, exec .trapPuts s = .next t ∧
      WritesConsoleOnly s t ((ws.flatMap lowByteOf).map ConsoleOut.byte ++ [.flush])) ∧
  (∀ (s : State) (ws : List Word), WordsAt s (s.reg .r0) ws →
    s.reg .r0 + BitVec.ofNat 16 ws.length = 0xFE00#16 → s.console.poll.1 = false →
    ∃ t, exec .trapPuts s = .next t ∧
      t.console.output = s.console.output ++ (ws.flatMap lowByteOf).map ConsoleOut.byte ++ [.flush] ∧
      t.cell 0xFE00#16 = 0 ∧ CellsSameBut 0xFE00#16 s t ∧ t.console.input = s.console.input ∧
      RegsSame s t ∧ t.pc = s.pc ∧ t.cond = s.cond ∧ t.run = s.run ∧ t.promptShown = s.promptShown) ∧
  (∀ (s : State) (ws : List Word), WordsAt s (s.reg .r0) ws →
    s.reg .r0 + BitVec.ofNat 16 ws.length = 0xFE00#16 → s.console.poll.1 = true →
    ∃ u, exec .trapPuts s = onNext (fun t => t.setReg .r0 (s.reg .r0)) (exec .trapPuts u) ∧
      u.reg .r0 = 0xFE01#16 ∧ RegsSameBut .r0 s u ∧ u.cell 0xFE00#16 = 0x8000#16 ∧
      (∃ v t, s.conRead = some (v, t) ∧ u.cell 0xFE02#16 = v) ∧
      (∀ x, x ≠ 0xFE00#16 → x ≠ 0xFE02#16 → u.cell x = s.cell x) ∧
      u.console = { s.console with
        input := s.console.input.tail
        polls := s.console.polls.tail
        output := s.console.output ++ (ws.flatMap lowByteOf).map ConsoleOut.byte ++ [.byte 0x00] } ∧
      u.pc = s.pc ∧ u.cond = s.cond ∧ u.run = s.run ∧ u.promptShown = s.promptShown)

/-- R129: IN writes the prompt (once for the step: not again if it has already been written while the read blocked,
assumption 10), flushes, reads, echoes the low byte, flushes, and puts the word in R0. (The flushes are the spec's decision
D14, the prompt's text is the free value IN_PROMPT.) -/
def Obligations.InPromptsReadsAndEchoes : Prop :=
  ∀ (x : BitVec 4) (s : State),
    decode (0b1111#4 ++ x ++ 0x23#8) = .trapIn ∧
    (s.console.input ≠ [] ∨ s.console.ended = true →
      ∃ t, exec .trapIn s = .next t ∧
        (∀ b rest, s.console.input = b :: rest → (t.reg .r0).toNat = b.toNat) ∧
        (s.console.input = [] → t.reg .r0 = Config.eofSentinel) ∧
        t.console = { s.console with
          input := s.console.input.tail
          output := s.console.output ++
            (if s.promptShown then [] else Config.inPrompt.map ConsoleOut.byte ++ [.flush]) ++
            [.byte (BitVec.ofNat 8 ((t.reg .r0).toNat % 256)), .flush] } ∧
        RegsSameBut .r0 s t ∧ t.pc = s.pc ∧ t.cond = s.cond ∧ t.run = s.run ∧
        t.promptShown = false ∧ CellsSame s t)

/-- R130: PUTSP writes the low byte of each word and then its high byte if that is not zero, up to the first zero word,
then flushes. A walk that reaches the status port with nothing pending ends there; with a character pending it writes the
bytes 0x00 and 0x80 for the word 0x8000 and goes on at 0xFE01, as in PUTS. (Decisions D15 and D6, assumptions 9 and 21.) -/
def Obligations.PutspWritesTwoCharactersAWord : Prop :=
  (∀ x : BitVec 4, decode (0b1111#4 ++ x ++ 0x24#8) = .trapPutsp) ∧
  (∀ (s : State) (ws : List Word), WordsAt s (s.reg .r0) ws →
    s.reg .r0 + BitVec.ofNat 16 ws.length ≠ 0xFE00#16 → s.cell (s.reg .r0 + BitVec.ofNat 16 ws.length) = 0 →
    ∃ t, exec .trapPutsp s = .next t ∧
      WritesConsoleOnly s t ((ws.flatMap bothBytesOf).map ConsoleOut.byte ++ [.flush])) ∧
  (∀ (s : State) (ws : List Word), WordsAt s (s.reg .r0) ws →
    s.reg .r0 + BitVec.ofNat 16 ws.length = 0xFE00#16 → s.console.poll.1 = false →
    ∃ t, exec .trapPutsp s = .next t ∧
      t.console.output = s.console.output ++ (ws.flatMap bothBytesOf).map ConsoleOut.byte ++ [.flush] ∧
      t.cell 0xFE00#16 = 0 ∧ CellsSameBut 0xFE00#16 s t ∧ t.console.input = s.console.input ∧
      RegsSame s t ∧ t.pc = s.pc ∧ t.cond = s.cond ∧ t.run = s.run ∧ t.promptShown = s.promptShown) ∧
  (∀ (s : State) (ws : List Word), WordsAt s (s.reg .r0) ws →
    s.reg .r0 + BitVec.ofNat 16 ws.length = 0xFE00#16 → s.console.poll.1 = true →
    ∃ u, exec .trapPutsp s = onNext (fun t => t.setReg .r0 (s.reg .r0)) (exec .trapPutsp u) ∧
      u.reg .r0 = 0xFE01#16 ∧ RegsSameBut .r0 s u ∧ u.cell 0xFE00#16 = 0x8000#16 ∧
      (∃ v t, s.conRead = some (v, t) ∧ u.cell 0xFE02#16 = v) ∧
      (∀ x, x ≠ 0xFE00#16 → x ≠ 0xFE02#16 → u.cell x = s.cell x) ∧
      u.console = { s.console with
        input := s.console.input.tail
        polls := s.console.polls.tail
        output := s.console.output ++ (ws.flatMap bothBytesOf).map ConsoleOut.byte ++ [.byte 0x00, .byte 0x80] } ∧
      u.pc = s.pc ∧ u.cond = s.cond ∧ u.run = s.run ∧ u.promptShown = s.promptShown)

/-- R131: HALT announces, flushes and sets `run` to Halted; PC keeps the incremented value. (The announcement's text is
the free value HALT_MSG.) -/
def Obligations.HaltAnnouncesAndStops : Prop :=
  ∀ (x : BitVec 4) (s : State),
    decode (0b1111#4 ++ x ++ 0x25#8) = .trapHalt ∧
    ∃ t, exec .trapHalt s = .next t ∧ t.run = .halted ∧
      t.console = { s.console with
        output := s.console.output ++ Config.haltMsg.map ConsoleOut.byte ++ [.flush] } ∧
      RegsSame s t ∧ t.pc = s.pc ∧ t.cond = s.cond ∧ t.promptShown = s.promptShown ∧ CellsSame s t

/-- R132: every other vector does nothing and is no fault. (The spec's decision D10, C4.) -/
def Obligations.OtherVectorsDoNothing : Prop :=
  ∀ (x : BitVec 4) (v : BitVec 8), v.toNat < 0x20 ∨ 0x25 < v.toNat →
    decode (0b1111#4 ++ x ++ v) = .trap v ∧ ∀ s : State, exec (.trap v) s = .next s

/-- R125: TRAP selects its service by its vector, whatever bits [11:8] hold: executing the word `1111 xxxx v` is executing
the service of `v`. And what `exec` does for the generic TRAP term with one of these six vectors agrees with it; that term
is ill-formed, no word decodes to it and no step executes it, so this second half is the model's choice (assumption 19). -/
def Obligations.TrapSelectsTheService : Prop :=
  (∀ (x : BitVec 4) (s : State),
    exec (decode (0b1111#4 ++ x ++ 0x20#8)) s = exec .trapGetc s ∧
    exec (decode (0b1111#4 ++ x ++ 0x21#8)) s = exec .trapOut s ∧
    exec (decode (0b1111#4 ++ x ++ 0x22#8)) s = exec .trapPuts s ∧
    exec (decode (0b1111#4 ++ x ++ 0x23#8)) s = exec .trapIn s ∧
    exec (decode (0b1111#4 ++ x ++ 0x24#8)) s = exec .trapPutsp s ∧
    exec (decode (0b1111#4 ++ x ++ 0x25#8)) s = exec .trapHalt s) ∧
  ∀ s : State, exec (.trap 0x20#8) s = exec .trapGetc s ∧ exec (.trap 0x21#8) s = exec .trapOut s ∧
    exec (.trap 0x22#8) s = exec .trapPuts s ∧ exec (.trap 0x23#8) s = exec .trapIn s ∧
    exec (.trap 0x24#8) s = exec .trapPutsp s ∧ exec (.trap 0x25#8) s = exec .trapHalt s

/-- R159: while GETC blocks, the step has not happened: the state stays as it is. (That a blocked CORE is a step to the
same state is the model's form, assumption 10.) -/
def Obligations.BlockedGetcChangesNothing : Prop :=
  ∀ s : State, s.run = .running → s.pc ≠ 0xFE00#16 → decode (s.cell s.pc) = .trapGetc →
    s.console.input = [] → s.console.ended = false → step s = .next s

/-- R159: while IN blocks, only its prompt has been written, and once; it goes on blocking; and the character that lifts
the block is echoed and delivered without a second prompt. (The model's form, assumption 10.) -/
def Obligations.BlockedInPromptsOnce : Prop :=
  ∀ s : State, s.run = .running → s.pc ≠ 0xFE00#16 → decode (s.cell s.pc) = .trapIn →
    s.console.input = [] → s.console.ended = false → s.promptShown = false →
    ∃ t, step s = .next t ∧
      WritesConsoleOnly s (t.setPromptShown false) (Config.inPrompt.map ConsoleOut.byte ++ [.flush]) ∧
      t.promptShown = true ∧ step t = .next t ∧
      ∀ b : Byte, ∃ u, step (t.charArrives b) = .next u ∧ (u.reg .r0).toNat = b.toNat ∧ u.pc = s.pc + 1 ∧
        u.console = { t.console with output := t.console.output ++ [.byte b, .flush] } ∧
        RegsSameBut .r0 s u ∧ u.cond = s.cond ∧ u.run = .running ∧ u.promptShown = false ∧ CellsSame s u

/-- R128, R130: the fuel of the walk never shows. PUTS and PUTSP complete exactly when their loop ends after some number
of words, with the state that end leaves and the flush; and they never complete exactly when the loop never ends. (What the console
supplies to one walk is assumptions 11 and 21.) -/
def Obligations.StringWalkIsNeverCutShort : Prop :=
  ∀ s : State,
    (∀ t, exec .trapPuts s = .next t ↔
      ∃ k u, State.walkString putsBytes k (s.reg .r0) s = some u ∧ t = u.conFlush) ∧
    (exec .trapPuts s = .fault .endlessString ↔ ∀ k, State.walkString putsBytes k (s.reg .r0) s = none) ∧
    (∀ t, exec .trapPutsp s = .next t ↔
      ∃ k u, State.walkString putspBytes k (s.reg .r0) s = some u ∧ t = u.conFlush) ∧
    (exec .trapPutsp s = .fault .endlessString ↔ ∀ k, State.walkString putspBytes k (s.reg .r0) s = none)

/-- R145, R128: as long as the input has not ended, the step of a running CORE gives a next state: no instruction is
refused, none faults in the host's sense, and even PUTS and PUTSP end, because a walk comes to the status port and finds
nothing pending there. A GETC or IN that blocks has not completed (R159); that the model answers a next state for it, with
PC held at the instruction, is its choice (assumption 10), and so is a keyboard that runs dry (assumptions 9 and 11). -/
def Obligations.RunningCoreAlwaysSteps : Prop :=
  ∀ s : State, s.run = .running → s.console.ended = false → ∃ t, step s = .next t

/-! ### The fault (60_exceptions.md) -/

/-- R133, R134: every word of opcode 8 and every word of opcode 13, whatever its other bits, raises IllegalOpcode with
its own address and itself; no register, flag, cell or console stream changes. (The form of the fault is the spec's
decision D11.) -/
def Obligations.FatalOpcodesRaiseIllegalOpcode : Prop :=
  ∀ (x : BitVec 12) (s : State),
    (decode (0b1000#4 ++ x) = .rti x ∧
      ∃ t, exec (.rti x) s = .next t ∧ t.run = .faulted (s.pc - 1) (0b1000#4 ++ x) ∧
        JumpsOnly (s.setRun t.run) t s.pc) ∧
    (decode (0b1101#4 ++ x) = .res x ∧
      ∃ t, exec (.res x) s = .next t ∧ t.run = .faulted (s.pc - 1) (0b1101#4 ++ x) ∧
        JumpsOnly (s.setRun t.run) t s.pc)

/-- R146: an illegal word fetched at address `a` ends the run in Fault(IllegalOpcode, a, ir), with PC at `a + 1` and
nothing else written but what the poll of a fetch from 0xFE00 writes; and no step follows. (Decision D11.) -/
def Obligations.IllegalWordEndsTheRun : Prop :=
  ∀ s : State, s.run = .running → illegalWord s.fetch.1 →
    ∃ t, step s = .next t ∧ t.run = .faulted s.pc s.fetch.1 ∧ t.pc = s.pc + 1 ∧
      RegsSame s t ∧ t.cond = s.cond ∧ t.promptShown = s.promptShown ∧
      CellsSame (s.memRead s.pc).2 t ∧ t.console = (s.memRead s.pc).2.console ∧
      (s.pc ≠ 0xFE00#16 → CellsSame s t ∧ t.console = s.console) ∧
      step t = .fault (.coreFaulted s.pc s.fetch.1)

/-! ### The step and the run (10_state.md, 70_reset_and_hazards.md) -/

/-- R30: a running CORE fetches the word at PC, increments PC, which wraps, decodes the word and executes the instruction;
at any address but the status port the fetch changes nothing else. -/
def Obligations.StepRunsTheDecodedInstruction : Prop :=
  ∀ s : State, s.run = .running →
    step s = exec (decode (s.memRead s.pc).1) ((s.memRead s.pc).2.setPc (s.pc + 1)) ∧
    (s.pc ≠ 0xFE00#16 → step s = exec (decode (s.cell s.pc)) (s.setPc (s.pc + 1)))

/-- R30: when `run` is Halted or Fault the CORE takes no further step. (The model says so with a fault of the host's kind,
assumption 15.) -/
def Obligations.EndedCoreTakesNoStep : Prop :=
  ∀ s : State, (s.run = .halted → step s = .fault .coreHalted) ∧
    (∀ a ir, s.run = .faulted a ir → step s = .fault (.coreFaulted a ir))

/-- R171: the start sets `run` to Running and changes nothing else. (That the start is a step of the model is
assumption 8.) -/
def Obligations.StartLeavesEverythingAsLoaded : Prop :=
  ∀ s : State, s.run = .ready → ∃ t, step s = .next t ∧ t.run = .running ∧ t.pc = s.pc ∧ RegsSame s t ∧
    t.cond = s.cond ∧ CellsSame s t ∧ t.console = s.console ∧ t.promptShown = s.promptShown

/-- R36, R165: after reset PC is 0x3000, the CORE is not yet running, and R0..R7, COND and every cell hold the values the
spec leaves OPEN (free values, assumptions 2, 3, 4). -/
def Obligations.ResetState : Prop :=
  State.reset.pc = 0x3000#16 ∧ State.reset.run ≠ .running ∧ ¬ State.reset.ended ∧
  (∀ r, State.reset.reg r = Config.gprReset r) ∧ State.reset.cond = Config.condReset ∧
  (∀ a, State.reset.cell a = Config.memReset a)

/-- Every step keeps the invariant: memory stays in its canonical form, inside the address space, and a held IN is the
instruction at PC of a running CORE. -/
def Obligations.EveryStepKeepsTheInvariant : Prop :=
  ∀ s t : State, s.Inv → step s = .next t → t.Inv

/-- The invariant holds after reset. -/
def Obligations.ResetHasTheInvariant : Prop := State.reset.Inv

/-- The host's and the environment's moves keep the invariant. -/
def Obligations.EnvironmentKeepsTheInvariant : Prop :=
  ∀ s : State, s.Inv →
    (∀ b, (s.charArrives b).Inv) ∧ s.inputEnds.Inv ∧ (∀ polls rest, (s.pollsDecided polls rest).Inv) ∧
    (∀ bytes t, s.loadImage bytes = .ok t → t.Inv)

/-- R28, over all instructions: COND is written by ADD, AND, NOT, LD, LDI, LDR, LEA, each with the flag of the value it
has just written, and by nothing else, not by the fetch, a poll or an image load. -/
def Obligations.OnlyTheListedInstructionsWriteCond : Prop :=
  (∀ (i : Instr) (s t : State), exec i s = .next t →
    match flagReg i with
    | some dr => FlagOf (t.reg dr) t.cond
    | none => t.cond = s.cond) ∧
  (∀ s : State, s.fetch.2.cond = s.cond ∧ s.pollKeyboard.cond = s.cond) ∧
  (∀ (s t : State) (bytes : List Byte), s.loadImage bytes = .ok t → t.cond = s.cond)

/-- R22, over all instructions: a general register that the table does not list as written keeps its value. -/
def Obligations.OnlyTheListedRegistersAreWritten : Prop :=
  ∀ (i : Instr) (s t : State), i.wellFormed = true → exec i s = .next t →
    ∀ r, r ∉ writtenRegs i → t.reg r = s.reg r

/-- R38, over all instructions: where PC stands at the end of the step, `s.pc - 1` being the instruction's address; a
console read that blocks has not happened yet, so PC is back at it (assumption 10). -/
def Obligations.PcAtTheEndOfEveryInstruction : Prop :=
  ∀ (i : Instr) (s t : State), i.wellFormed = true → exec i s = .next t →
    (blockedRead i s → t.pc = s.pc - 1) ∧ (¬ blockedRead i s → t.pc = pcAtEnd i (s.pc - 1) s)

/-- R42, over all instructions: a cell changes only if it is the address the instruction stores to or, for an
instruction that reads memory, one of the two ports. -/
def Obligations.OnlyStoresAndPollsChangeMemory : Prop :=
  ∀ (i : Instr) (s t : State), i.wellFormed = true → exec i s = .next t →
    ∀ x, storeAddress i s ≠ some x → (readsMemory i = false ∨ (x ≠ 0xFE00#16 ∧ x ≠ 0xFE02#16)) →
      t.cell x = s.cell x

/-- R30: Halted is entered only by trap HALT, Fault only by opcodes 8 and 13; no other instruction changes the run
state. -/
def Obligations.OnlyHaltAndFatalOpcodesEndTheRun : Prop :=
  ∀ (i : Instr) (s t : State), i.wellFormed = true → exec i s = .next t →
    t.run = s.run ∨ (i = .trapHalt ∧ t.run = .halted) ∨
      ((∃ x, i = .rti x ∨ i = .res x) ∧ ∃ ir, illegalWord ir ∧ t.run = .faulted (s.pc - 1) ir)

/-- R146, over whole runs: a run that never fetches an illegal word never faults. -/
def Obligations.RunsFaultOnlyOnIllegalWords : Prop :=
  ∀ s : State, (∀ a ir, s.run ≠ .faulted a ir) →
    (∀ n t, Host.Core.run Sys2Proof.core n s = .next t → t.run = .running → ¬ illegalWord t.fetch.1) →
    s.safeRun

/-- R138, R139: what has been written to the console is never taken back and never influences the CORE: with anything
written earlier, every step does the same and keeps it. -/
def Obligations.OutputNeverInfluencesTheCore : Prop :=
  ∀ (s : State) (pre : List ConsoleOut),
    step (s.withEarlierOutput pre) = onNext (fun t => t.withEarlierOutput pre) (step s)

/-- R168: a successful load puts word `k` of the file at `origin + k`, big-endian, up to the top of the address space,
without wrapping and without the trailing odd byte, and changes nothing else (R169); a file with no complete origin word
is Truncated (R170). (Capacity, odd byte and origin-only file are the spec's decision D16.) -/
def Obligations.ImageLoadFillsMemoryFromTheOrigin : Prop :=
  ∀ s : State, s.run = .ready →
    (∀ bytes : List Byte, bytes.length < 2 → s.loadImage bytes = .error .truncated) ∧
    (∀ (hi lo : Byte) (payload : List Byte), ∃ t, s.loadImage (hi :: lo :: payload) = .ok t ∧
      (let origin := 256 * hi.toNat + lo.toNat
       let n := min (payload.length / 2) (0x10000 - origin)
       (∀ i, i < n → (t.cell (BitVec.ofNat 16 (origin + i))).toNat =
          256 * (payload.getD (2 * i) 0).toNat + (payload.getD (2 * i + 1) 0).toNat) ∧
       (∀ x : Word, x.toNat < origin ∨ origin + n ≤ x.toNat → t.cell x = s.cell x)) ∧
      RegsSame s t ∧ t.pc = s.pc ∧ t.cond = s.cond ∧ t.run = s.run ∧ t.console = s.console ∧
      t.promptShown = s.promptShown)
end

