-- ==== Sys2Proof/Laws/Decode.lean ====
section
/-!
SUPPORT. The decoder, form by form: what it gives for every word of each format of R62, ignored bits included (R67), and
the register field's round trip.
-/

namespace Sys2Proof

theorem Reg.ofBits_toBits (r : Reg) : Reg.ofBits r.toBits = r := by cases r <;> decide

theorem Reg.toBits_ofBits (b : BitVec 3) : (Reg.ofBits b).toBits = b := by revert b; decide

/-- The number a concatenation stands for. -/
theorem append_toNat {m n : Nat} (x : BitVec m) (y : BitVec n) : (x ++ y).toNat = x.toNat * 2 ^ n + y.toNat := by
  rw [BitVec.toNat_append, ← Nat.shiftLeft_add_eq_or_of_lt y.isLt, Nat.shiftLeft_eq]

/-! ### By opcode (R66) -/

section byOpcode
variable {w : Word}

theorem decode_of_opcode_br (h : w.extractLsb' 12 4 = 0#4) :
    decode w = .br (w.getLsbD 11) (w.getLsbD 10) (w.getLsbD 9) (fieldPcOffset9 w) := by
  unfold decode opcodeOf; rw [h]; rfl

theorem decode_of_opcode_add (h : w.extractLsb' 12 4 = 1#4) :
    decode w = if w.getLsbD 5 then .addImm (fieldDR w) (fieldSR1 w) (fieldImm5 w) else .addReg (fieldDR w) (fieldSR1 w) (fieldSR2 w) := by
  unfold decode opcodeOf; rw [h]; rfl

theorem decode_of_opcode_ld (h : w.extractLsb' 12 4 = 2#4) :
    decode w = .ld (fieldDR w) (fieldPcOffset9 w) := by
  unfold decode opcodeOf; rw [h]; rfl

theorem decode_of_opcode_st (h : w.extractLsb' 12 4 = 3#4) :
    decode w = .st (fieldDR w) (fieldPcOffset9 w) := by
  unfold decode opcodeOf; rw [h]; rfl

theorem decode_of_opcode_jsr (h : w.extractLsb' 12 4 = 4#4) :
    decode w = if w.getLsbD 11 then .jsr (fieldPcOffset11 w) else .jsrr (fieldSR1 w) := by
  unfold decode opcodeOf; rw [h]; rfl

theorem decode_of_opcode_and (h : w.extractLsb' 12 4 = 5#4) :
    decode w = if w.getLsbD 5 then .andImm (fieldDR w) (fieldSR1 w) (fieldImm5 w) else .andReg (fieldDR w) (fieldSR1 w) (fieldSR2 w) := by
  unfold decode opcodeOf; rw [h]; rfl

theorem decode_of_opcode_ldr (h : w.extractLsb' 12 4 = 6#4) :
    decode w = .ldr (fieldDR w) (fieldSR1 w) (fieldOffset6 w) := by
  unfold decode opcodeOf; rw [h]; rfl

theorem decode_of_opcode_str (h : w.extractLsb' 12 4 = 7#4) :
    decode w = .str (fieldDR w) (fieldSR1 w) (fieldOffset6 w) := by
  unfold decode opcodeOf; rw [h]; rfl

theorem decode_of_opcode_rti (h : w.extractLsb' 12 4 = 8#4) :
    decode w = .rti (fieldLow12 w) := by
  unfold decode opcodeOf; rw [h]; rfl

theorem decode_of_opcode_not (h : w.extractLsb' 12 4 = 9#4) :
    decode w = .not (fieldDR w) (fieldSR1 w) := by
  unfold decode opcodeOf; rw [h]; rfl

theorem decode_of_opcode_ldi (h : w.extractLsb' 12 4 = 10#4) :
    decode w = .ldi (fieldDR w) (fieldPcOffset9 w) := by
  unfold decode opcodeOf; rw [h]; rfl

theorem decode_of_opcode_sti (h : w.extractLsb' 12 4 = 11#4) :
    decode w = .sti (fieldDR w) (fieldPcOffset9 w) := by
  unfold decode opcodeOf; rw [h]; rfl

theorem decode_of_opcode_jmp (h : w.extractLsb' 12 4 = 12#4) :
    decode w = .jmp (fieldSR1 w) := by
  unfold decode opcodeOf; rw [h]; rfl

theorem decode_of_opcode_res (h : w.extractLsb' 12 4 = 13#4) :
    decode w = .res (fieldLow12 w) := by
  unfold decode opcodeOf; rw [h]; rfl

theorem decode_of_opcode_lea (h : w.extractLsb' 12 4 = 14#4) :
    decode w = .lea (fieldDR w) (fieldPcOffset9 w) := by
  unfold decode opcodeOf; rw [h]; rfl

theorem decode_of_opcode_trap (h : w.extractLsb' 12 4 = 15#4) :
    decode w = decodeTrap (fieldTrapvect8 w) := by
  unfold decode opcodeOf; rw [h]; rfl

end byOpcode

/-! ### By format (R62) -/

section byFormat
variable (dr sr1 sr2 : Reg)

theorem decode_addReg (x : BitVec 2) :
    decode (0b0001#4 ++ dr.toBits ++ sr1.toBits ++ 0b0#1 ++ x ++ sr2.toBits) = .addReg dr sr1 sr2 := by
  have op : (0b0001#4 ++ dr.toBits ++ sr1.toBits ++ 0b0#1 ++ x ++ sr2.toBits : Word).extractLsb' 12 4 = 1#4 := by grind
  have f0 : (0b0001#4 ++ dr.toBits ++ sr1.toBits ++ 0b0#1 ++ x ++ sr2.toBits : Word).getLsbD 5 = false := by grind
  have f1 : (0b0001#4 ++ dr.toBits ++ sr1.toBits ++ 0b0#1 ++ x ++ sr2.toBits : Word).extractLsb' 9 3 = dr.toBits := by grind
  have f2 : (0b0001#4 ++ dr.toBits ++ sr1.toBits ++ 0b0#1 ++ x ++ sr2.toBits : Word).extractLsb' 6 3 = sr1.toBits := by grind
  have f3 : (0b0001#4 ++ dr.toBits ++ sr1.toBits ++ 0b0#1 ++ x ++ sr2.toBits : Word).extractLsb' 0 3 = sr2.toBits := by grind
  rw [decode_of_opcode_add op]
  simp only [fieldDR, fieldSR1, fieldSR2, f0, f1, f2, f3, Reg.ofBits_toBits, Bool.false_eq_true, if_false]

theorem decode_addImm (imm5 : BitVec 5) :
    decode (0b0001#4 ++ dr.toBits ++ sr1.toBits ++ 0b1#1 ++ imm5) = .addImm dr sr1 imm5 := by
  have op : (0b0001#4 ++ dr.toBits ++ sr1.toBits ++ 0b1#1 ++ imm5 : Word).extractLsb' 12 4 = 1#4 := by grind
  have f0 : (0b0001#4 ++ dr.toBits ++ sr1.toBits ++ 0b1#1 ++ imm5 : Word).getLsbD 5 = true := by grind
  have f1 : (0b0001#4 ++ dr.toBits ++ sr1.toBits ++ 0b1#1 ++ imm5 : Word).extractLsb' 9 3 = dr.toBits := by grind
  have f2 : (0b0001#4 ++ dr.toBits ++ sr1.toBits ++ 0b1#1 ++ imm5 : Word).extractLsb' 6 3 = sr1.toBits := by grind
  have f3 : (0b0001#4 ++ dr.toBits ++ sr1.toBits ++ 0b1#1 ++ imm5 : Word).extractLsb' 0 5 = imm5 := by grind
  rw [decode_of_opcode_add op]
  simp only [fieldDR, fieldSR1, fieldImm5, f0, f1, f2, f3, Reg.ofBits_toBits, if_true]

theorem decode_andReg (x : BitVec 2) :
    decode (0b0101#4 ++ dr.toBits ++ sr1.toBits ++ 0b0#1 ++ x ++ sr2.toBits) = .andReg dr sr1 sr2 := by
  have op : (0b0101#4 ++ dr.toBits ++ sr1.toBits ++ 0b0#1 ++ x ++ sr2.toBits : Word).extractLsb' 12 4 = 5#4 := by grind
  have f0 : (0b0101#4 ++ dr.toBits ++ sr1.toBits ++ 0b0#1 ++ x ++ sr2.toBits : Word).getLsbD 5 = false := by grind
  have f1 : (0b0101#4 ++ dr.toBits ++ sr1.toBits ++ 0b0#1 ++ x ++ sr2.toBits : Word).extractLsb' 9 3 = dr.toBits := by grind
  have f2 : (0b0101#4 ++ dr.toBits ++ sr1.toBits ++ 0b0#1 ++ x ++ sr2.toBits : Word).extractLsb' 6 3 = sr1.toBits := by grind
  have f3 : (0b0101#4 ++ dr.toBits ++ sr1.toBits ++ 0b0#1 ++ x ++ sr2.toBits : Word).extractLsb' 0 3 = sr2.toBits := by grind
  rw [decode_of_opcode_and op]
  simp only [fieldDR, fieldSR1, fieldSR2, f0, f1, f2, f3, Reg.ofBits_toBits, Bool.false_eq_true, if_false]

theorem decode_andImm (imm5 : BitVec 5) :
    decode (0b0101#4 ++ dr.toBits ++ sr1.toBits ++ 0b1#1 ++ imm5) = .andImm dr sr1 imm5 := by
  have op : (0b0101#4 ++ dr.toBits ++ sr1.toBits ++ 0b1#1 ++ imm5 : Word).extractLsb' 12 4 = 5#4 := by grind
  have f0 : (0b0101#4 ++ dr.toBits ++ sr1.toBits ++ 0b1#1 ++ imm5 : Word).getLsbD 5 = true := by grind
  have f1 : (0b0101#4 ++ dr.toBits ++ sr1.toBits ++ 0b1#1 ++ imm5 : Word).extractLsb' 9 3 = dr.toBits := by grind
  have f2 : (0b0101#4 ++ dr.toBits ++ sr1.toBits ++ 0b1#1 ++ imm5 : Word).extractLsb' 6 3 = sr1.toBits := by grind
  have f3 : (0b0101#4 ++ dr.toBits ++ sr1.toBits ++ 0b1#1 ++ imm5 : Word).extractLsb' 0 5 = imm5 := by grind
  rw [decode_of_opcode_and op]
  simp only [fieldDR, fieldSR1, fieldImm5, f0, f1, f2, f3, Reg.ofBits_toBits, if_true]

theorem decode_not (x : BitVec 6) :
    decode (0b1001#4 ++ dr.toBits ++ sr1.toBits ++ x) = .not dr sr1 := by
  have op : (0b1001#4 ++ dr.toBits ++ sr1.toBits ++ x : Word).extractLsb' 12 4 = 9#4 := by grind
  have f0 : (0b1001#4 ++ dr.toBits ++ sr1.toBits ++ x : Word).extractLsb' 9 3 = dr.toBits := by grind
  have f1 : (0b1001#4 ++ dr.toBits ++ sr1.toBits ++ x : Word).extractLsb' 6 3 = sr1.toBits := by grind
  rw [decode_of_opcode_not op]
  simp only [fieldDR, fieldSR1, f0, f1, Reg.ofBits_toBits]

theorem decode_br (n z p : Bool) (off : BitVec 9) :
    decode (0b0000#4 ++ BitVec.ofBool n ++ BitVec.ofBool z ++ BitVec.ofBool p ++ off) = .br n z p off := by
  have op : (0b0000#4 ++ BitVec.ofBool n ++ BitVec.ofBool z ++ BitVec.ofBool p ++ off : Word).extractLsb' 12 4 = 0#4 := by grind
  have f0 : (0b0000#4 ++ BitVec.ofBool n ++ BitVec.ofBool z ++ BitVec.ofBool p ++ off : Word).getLsbD 11 = n := by grind
  have f1 : (0b0000#4 ++ BitVec.ofBool n ++ BitVec.ofBool z ++ BitVec.ofBool p ++ off : Word).getLsbD 10 = z := by grind
  have f2 : (0b0000#4 ++ BitVec.ofBool n ++ BitVec.ofBool z ++ BitVec.ofBool p ++ off : Word).getLsbD 9 = p := by grind
  have f3 : (0b0000#4 ++ BitVec.ofBool n ++ BitVec.ofBool z ++ BitVec.ofBool p ++ off : Word).extractLsb' 0 9 = off := by grind
  rw [decode_of_opcode_br op]
  simp only [fieldPcOffset9, f0, f1, f2, f3]

theorem decode_jmp (x : BitVec 3) (y : BitVec 6) :
    decode (0b1100#4 ++ x ++ sr1.toBits ++ y) = .jmp sr1 := by
  have op : (0b1100#4 ++ x ++ sr1.toBits ++ y : Word).extractLsb' 12 4 = 12#4 := by grind
  have f0 : (0b1100#4 ++ x ++ sr1.toBits ++ y : Word).extractLsb' 6 3 = sr1.toBits := by grind
  rw [decode_of_opcode_jmp op]
  simp only [fieldSR1, f0, Reg.ofBits_toBits]

theorem decode_jsr (off : BitVec 11) :
    decode (0b0100#4 ++ 0b1#1 ++ off) = .jsr off := by
  have op : (0b0100#4 ++ 0b1#1 ++ off : Word).extractLsb' 12 4 = 4#4 := by
    apply BitVec.eq_of_toNat_eq
    rw [BitVec.extractLsb'_toNat, Nat.shiftRight_eq_div_pow]
    erw [append_toNat, append_toNat]
    simp; omega
  have f0 : (0b0100#4 ++ 0b1#1 ++ off : Word).getLsbD 11 = true := by grind
  have f1 : (0b0100#4 ++ 0b1#1 ++ off : Word).extractLsb' 0 11 = off := by grind
  rw [decode_of_opcode_jsr op]
  simp only [fieldPcOffset11, f0, f1, if_true]

theorem decode_jsrr (x : BitVec 2) (y : BitVec 6) :
    decode (0b0100#4 ++ 0b0#1 ++ x ++ sr1.toBits ++ y) = .jsrr sr1 := by
  have op : (0b0100#4 ++ 0b0#1 ++ x ++ sr1.toBits ++ y : Word).extractLsb' 12 4 = 4#4 := by
    apply BitVec.eq_of_toNat_eq
    rw [BitVec.extractLsb'_toNat, Nat.shiftRight_eq_div_pow]
    erw [append_toNat, append_toNat, append_toNat, append_toNat]
    simp; omega
  have f0 : (0b0100#4 ++ 0b0#1 ++ x ++ sr1.toBits ++ y : Word).getLsbD 11 = false := by grind
  have f1 : (0b0100#4 ++ 0b0#1 ++ x ++ sr1.toBits ++ y : Word).extractLsb' 6 3 = sr1.toBits := by grind
  rw [decode_of_opcode_jsr op]
  simp only [fieldSR1, f0, f1, Reg.ofBits_toBits, Bool.false_eq_true, if_false]

theorem decode_ld (off : BitVec 9) :
    decode (0b0010#4 ++ dr.toBits ++ off) = .ld dr off := by
  have op : (0b0010#4 ++ dr.toBits ++ off : Word).extractLsb' 12 4 = 2#4 := by grind
  have f0 : (0b0010#4 ++ dr.toBits ++ off : Word).extractLsb' 9 3 = dr.toBits := by grind
  have f1 : (0b0010#4 ++ dr.toBits ++ off : Word).extractLsb' 0 9 = off := by grind
  rw [decode_of_opcode_ld op]
  simp only [fieldDR, fieldPcOffset9, f0, f1, Reg.ofBits_toBits]

theorem decode_ldi (off : BitVec 9) :
    decode (0b1010#4 ++ dr.toBits ++ off) = .ldi dr off := by
  have op : (0b1010#4 ++ dr.toBits ++ off : Word).extractLsb' 12 4 = 10#4 := by grind
  have f0 : (0b1010#4 ++ dr.toBits ++ off : Word).extractLsb' 9 3 = dr.toBits := by grind
  have f1 : (0b1010#4 ++ dr.toBits ++ off : Word).extractLsb' 0 9 = off := by grind
  rw [decode_of_opcode_ldi op]
  simp only [fieldDR, fieldPcOffset9, f0, f1, Reg.ofBits_toBits]

theorem decode_lea (off : BitVec 9) :
    decode (0b1110#4 ++ dr.toBits ++ off) = .lea dr off := by
  have op : (0b1110#4 ++ dr.toBits ++ off : Word).extractLsb' 12 4 = 14#4 := by grind
  have f0 : (0b1110#4 ++ dr.toBits ++ off : Word).extractLsb' 9 3 = dr.toBits := by grind
  have f1 : (0b1110#4 ++ dr.toBits ++ off : Word).extractLsb' 0 9 = off := by grind
  rw [decode_of_opcode_lea op]
  simp only [fieldDR, fieldPcOffset9, f0, f1, Reg.ofBits_toBits]

theorem decode_st (off : BitVec 9) :
    decode (0b0011#4 ++ dr.toBits ++ off) = .st dr off := by
  have op : (0b0011#4 ++ dr.toBits ++ off : Word).extractLsb' 12 4 = 3#4 := by grind
  have f0 : (0b0011#4 ++ dr.toBits ++ off : Word).extractLsb' 9 3 = dr.toBits := by grind
  have f1 : (0b0011#4 ++ dr.toBits ++ off : Word).extractLsb' 0 9 = off := by grind
  rw [decode_of_opcode_st op]
  simp only [fieldDR, fieldPcOffset9, f0, f1, Reg.ofBits_toBits]

theorem decode_sti (off : BitVec 9) :
    decode (0b1011#4 ++ dr.toBits ++ off) = .sti dr off := by
  have op : (0b1011#4 ++ dr.toBits ++ off : Word).extractLsb' 12 4 = 11#4 := by grind
  have f0 : (0b1011#4 ++ dr.toBits ++ off : Word).extractLsb' 9 3 = dr.toBits := by grind
  have f1 : (0b1011#4 ++ dr.toBits ++ off : Word).extractLsb' 0 9 = off := by grind
  rw [decode_of_opcode_sti op]
  simp only [fieldDR, fieldPcOffset9, f0, f1, Reg.ofBits_toBits]

theorem decode_ldr (off : BitVec 6) :
    decode (0b0110#4 ++ dr.toBits ++ sr1.toBits ++ off) = .ldr dr sr1 off := by
  have op : (0b0110#4 ++ dr.toBits ++ sr1.toBits ++ off : Word).extractLsb' 12 4 = 6#4 := by grind
  have f0 : (0b0110#4 ++ dr.toBits ++ sr1.toBits ++ off : Word).extractLsb' 9 3 = dr.toBits := by grind
  have f1 : (0b0110#4 ++ dr.toBits ++ sr1.toBits ++ off : Word).extractLsb' 6 3 = sr1.toBits := by grind
  have f2 : (0b0110#4 ++ dr.toBits ++ sr1.toBits ++ off : Word).extractLsb' 0 6 = off := by grind
  rw [decode_of_opcode_ldr op]
  simp only [fieldDR, fieldSR1, fieldOffset6, f0, f1, f2, Reg.ofBits_toBits]

theorem decode_str (off : BitVec 6) :
    decode (0b0111#4 ++ dr.toBits ++ sr1.toBits ++ off) = .str dr sr1 off := by
  have op : (0b0111#4 ++ dr.toBits ++ sr1.toBits ++ off : Word).extractLsb' 12 4 = 7#4 := by grind
  have f0 : (0b0111#4 ++ dr.toBits ++ sr1.toBits ++ off : Word).extractLsb' 9 3 = dr.toBits := by grind
  have f1 : (0b0111#4 ++ dr.toBits ++ sr1.toBits ++ off : Word).extractLsb' 6 3 = sr1.toBits := by grind
  have f2 : (0b0111#4 ++ dr.toBits ++ sr1.toBits ++ off : Word).extractLsb' 0 6 = off := by grind
  rw [decode_of_opcode_str op]
  simp only [fieldDR, fieldSR1, fieldOffset6, f0, f1, f2, Reg.ofBits_toBits]

theorem decode_trapVector (x : BitVec 4) (v : BitVec 8) :
    decode (0b1111#4 ++ x ++ v) = decodeTrap v := by
  have op : (0b1111#4 ++ x ++ v : Word).extractLsb' 12 4 = 15#4 := by grind
  have f0 : (0b1111#4 ++ x ++ v : Word).extractLsb' 0 8 = v := by grind
  rw [decode_of_opcode_trap op]
  simp only [fieldTrapvect8, f0]

theorem decode_rti (low : BitVec 12) :
    decode (0b1000#4 ++ low) = .rti low := by
  have op : (0b1000#4 ++ low : Word).extractLsb' 12 4 = 8#4 := by grind
  have f0 : (0b1000#4 ++ low : Word).extractLsb' 0 12 = low := by grind
  rw [decode_of_opcode_rti op]
  simp only [fieldLow12, f0]

theorem decode_res (low : BitVec 12) :
    decode (0b1101#4 ++ low) = .res low := by
  have op : (0b1101#4 ++ low : Word).extractLsb' 12 4 = 13#4 := by grind
  have f0 : (0b1101#4 ++ low : Word).extractLsb' 0 12 = low := by grind
  rw [decode_of_opcode_res op]
  simp only [fieldLow12, f0]

end byFormat

/-- R71, R132: a vector outside 0x20..0x25 selects no service. -/
theorem decodeTrap_of_other {v : BitVec 8} (h : isServiceVector v = false) : decodeTrap v = .trap v := by
  have hv : ∀ u : BitVec 8, isServiceVector u = true → v ≠ u := fun u hu he => by rw [he, hu] at h; cases h
  simp only [decodeTrap, hv 0x20#8 (by decide), hv 0x21#8 (by decide), hv 0x22#8 (by decide), hv 0x23#8 (by decide),
    hv 0x24#8 (by decide), hv 0x25#8 (by decide), if_false]

end Sys2Proof
end

