-- ==== Sys2Proof/Laws/State.lean ====
section
/-!
SUPPORT. One lemma for each field of the state and each update, so that no later proof unfolds a record update.
-/

namespace Sys2Proof.Machine

variable (s : State)

/-! ### Registers -/

theorem RegFile.get_set (f : RegFile) (r q : Reg) (v : Word) :
    (f.set r v).get q = if q = r then v else f.get q := by
  cases r <;> cases q <;> rfl

@[simp] theorem State.reg_setReg (r q : Reg) (v : Word) :
    (s.setReg r v).reg q = if q = r then v else s.reg q := RegFile.get_set _ _ _ _

theorem State.reg_setReg_self (r : Reg) (v : Word) : (s.setReg r v).reg r = v := by simp

theorem State.reg_setReg_ne {r q : Reg} (h : q ≠ r) (v : Word) : (s.setReg r v).reg q = s.reg q := by simp [h]

/-- A register file is known by its eight registers. -/
theorem RegFile.ext_get {f g : RegFile} (h : ∀ r, f.get r = g.get r) : f = g := by
  cases f; cases g
  have h0 := h .r0; have h1 := h .r1; have h2 := h .r2; have h3 := h .r3
  have h4 := h .r4; have h5 := h .r5; have h6 := h .r6; have h7 := h .r7
  simp_all [RegFile.get]

/-! ### Reading `pc` after an update -/

@[simp] theorem State.pc_setReg (r : Reg) (v : Word) : (s.setReg r v).pc = s.pc := rfl
@[simp] theorem State.pc_setPc (p : Word) : (s.setPc p).pc = p := rfl
@[simp] theorem State.pc_setCond (c : Cond) : (s.setCond c).pc = s.pc := rfl
@[simp] theorem State.pc_setRun (r : RunState) : (s.setRun r).pc = s.pc := rfl
@[simp] theorem State.pc_setConsole (c : Console) : (s.setConsole c).pc = s.pc := rfl
@[simp] theorem State.pc_setPromptShown (b : Bool) : (s.setPromptShown b).pc = s.pc := rfl
@[simp] theorem State.pc_memWrite (a v : Word) : (s.memWrite a v).pc = s.pc := rfl

/-! ### Reading `cond` after an update -/

@[simp] theorem State.cond_setReg (r : Reg) (v : Word) : (s.setReg r v).cond = s.cond := rfl
@[simp] theorem State.cond_setPc (p : Word) : (s.setPc p).cond = s.cond := rfl
@[simp] theorem State.cond_setCond (c : Cond) : (s.setCond c).cond = c := rfl
@[simp] theorem State.cond_setRun (r : RunState) : (s.setRun r).cond = s.cond := rfl
@[simp] theorem State.cond_setConsole (c : Console) : (s.setConsole c).cond = s.cond := rfl
@[simp] theorem State.cond_setPromptShown (b : Bool) : (s.setPromptShown b).cond = s.cond := rfl
@[simp] theorem State.cond_memWrite (a v : Word) : (s.memWrite a v).cond = s.cond := rfl

/-! ### Reading `run` after an update -/

@[simp] theorem State.run_setReg (r : Reg) (v : Word) : (s.setReg r v).run = s.run := rfl
@[simp] theorem State.run_setPc (p : Word) : (s.setPc p).run = s.run := rfl
@[simp] theorem State.run_setCond (c : Cond) : (s.setCond c).run = s.run := rfl
@[simp] theorem State.run_setRun (r : RunState) : (s.setRun r).run = r := rfl
@[simp] theorem State.run_setConsole (c : Console) : (s.setConsole c).run = s.run := rfl
@[simp] theorem State.run_setPromptShown (b : Bool) : (s.setPromptShown b).run = s.run := rfl
@[simp] theorem State.run_memWrite (a v : Word) : (s.memWrite a v).run = s.run := rfl

/-! ### Reading `mem` after an update -/

@[simp] theorem State.mem_setReg (r : Reg) (v : Word) : (s.setReg r v).mem = s.mem := rfl
@[simp] theorem State.mem_setPc (p : Word) : (s.setPc p).mem = s.mem := rfl
@[simp] theorem State.mem_setCond (c : Cond) : (s.setCond c).mem = s.mem := rfl
@[simp] theorem State.mem_setRun (r : RunState) : (s.setRun r).mem = s.mem := rfl
@[simp] theorem State.mem_setConsole (c : Console) : (s.setConsole c).mem = s.mem := rfl
@[simp] theorem State.mem_setPromptShown (b : Bool) : (s.setPromptShown b).mem = s.mem := rfl
@[simp] theorem State.mem_memWrite (a v : Word) : (s.memWrite a v).mem = s.mem.insert a.toNat v := rfl

/-! ### Reading `console` after an update -/

@[simp] theorem State.console_setReg (r : Reg) (v : Word) : (s.setReg r v).console = s.console := rfl
@[simp] theorem State.console_setPc (p : Word) : (s.setPc p).console = s.console := rfl
@[simp] theorem State.console_setCond (c : Cond) : (s.setCond c).console = s.console := rfl
@[simp] theorem State.console_setRun (r : RunState) : (s.setRun r).console = s.console := rfl
@[simp] theorem State.console_setConsole (c : Console) : (s.setConsole c).console = c := rfl
@[simp] theorem State.console_setPromptShown (b : Bool) : (s.setPromptShown b).console = s.console := rfl
@[simp] theorem State.console_memWrite (a v : Word) : (s.memWrite a v).console = s.console := rfl

/-! ### Reading `promptShown` after an update -/

@[simp] theorem State.promptShown_setReg (r : Reg) (v : Word) : (s.setReg r v).promptShown = s.promptShown := rfl
@[simp] theorem State.promptShown_setPc (p : Word) : (s.setPc p).promptShown = s.promptShown := rfl
@[simp] theorem State.promptShown_setCond (c : Cond) : (s.setCond c).promptShown = s.promptShown := rfl
@[simp] theorem State.promptShown_setRun (r : RunState) : (s.setRun r).promptShown = s.promptShown := rfl
@[simp] theorem State.promptShown_setConsole (c : Console) : (s.setConsole c).promptShown = s.promptShown := rfl
@[simp] theorem State.promptShown_setPromptShown (b : Bool) : (s.setPromptShown b).promptShown = b := rfl
@[simp] theorem State.promptShown_memWrite (a v : Word) : (s.memWrite a v).promptShown = s.promptShown := rfl

/-! ### Reading a register after an update of anything else -/

@[simp] theorem State.reg_setPc (p : Word) (q : Reg) : (s.setPc p).reg q = s.reg q := rfl
@[simp] theorem State.reg_setCond (c : Cond) (q : Reg) : (s.setCond c).reg q = s.reg q := rfl
@[simp] theorem State.reg_setRun (x : RunState) (q : Reg) : (s.setRun x).reg q = s.reg q := rfl
@[simp] theorem State.reg_setConsole (c : Console) (q : Reg) : (s.setConsole c).reg q = s.reg q := rfl
@[simp] theorem State.reg_setPromptShown (b : Bool) (q : Reg) : (s.setPromptShown b).reg q = s.reg q := rfl
@[simp] theorem State.reg_memWrite (a v : Word) (q : Reg) : (s.memWrite a v).reg q = s.reg q := rfl

/-! ### Reading a cell after an update of anything but memory -/

@[simp] theorem State.cell_setReg (r : Reg) (v : Word) (x : Word) : (s.setReg r v).cell x = s.cell x := rfl
@[simp] theorem State.cell_setPc (p : Word) (x : Word) : (s.setPc p).cell x = s.cell x := rfl
@[simp] theorem State.cell_setCond (c : Cond) (x : Word) : (s.setCond c).cell x = s.cell x := rfl
@[simp] theorem State.cell_setRun (r : RunState) (x : Word) : (s.setRun r).cell x = s.cell x := rfl
@[simp] theorem State.cell_setConsole (c : Console) (x : Word) : (s.setConsole c).cell x = s.cell x := rfl
@[simp] theorem State.cell_setPromptShown (b : Bool) (x : Word) : (s.setPromptShown b).cell x = s.cell x := rfl

/-! ### The named updates built from these -/

@[simp] theorem State.pc_setcc (v : Word) : (s.setcc v).pc = s.pc := rfl
@[simp] theorem State.pc_writeResult (dr : Reg) (v : Word) : (s.writeResult dr v).pc = s.pc := rfl
@[simp] theorem State.run_setcc (v : Word) : (s.setcc v).run = s.run := rfl
@[simp] theorem State.run_writeResult (dr : Reg) (v : Word) : (s.writeResult dr v).run = s.run := rfl
@[simp] theorem State.mem_setcc (v : Word) : (s.setcc v).mem = s.mem := rfl
@[simp] theorem State.mem_writeResult (dr : Reg) (v : Word) : (s.writeResult dr v).mem = s.mem := rfl
@[simp] theorem State.console_setcc (v : Word) : (s.setcc v).console = s.console := rfl
@[simp] theorem State.console_writeResult (dr : Reg) (v : Word) : (s.writeResult dr v).console = s.console := rfl
@[simp] theorem State.promptShown_setcc (v : Word) : (s.setcc v).promptShown = s.promptShown := rfl
@[simp] theorem State.promptShown_writeResult (dr : Reg) (v : Word) : (s.writeResult dr v).promptShown = s.promptShown := rfl
@[simp] theorem State.cond_setcc (v : Word) : (s.setcc v).cond = condOf v := rfl
@[simp] theorem State.cond_writeResult (dr : Reg) (v : Word) : (s.writeResult dr v).cond = condOf v := rfl
@[simp] theorem State.reg_setcc (v : Word) (q : Reg) : (s.setcc v).reg q = s.reg q := rfl
@[simp] theorem State.reg_writeResult (dr q : Reg) (v : Word) :
    (s.writeResult dr v).reg q = if q = dr then v else s.reg q := s.reg_setReg dr q v
@[simp] theorem State.cell_setcc (v x : Word) : (s.setcc v).cell x = s.cell x := rfl
@[simp] theorem State.cell_writeResult (dr : Reg) (v x : Word) : (s.writeResult dr v).cell x = s.cell x := rfl

@[simp] theorem State.pc_conWrite (bs : List Byte) : (s.conWrite bs).pc = s.pc := rfl
@[simp] theorem State.cond_conWrite (bs : List Byte) : (s.conWrite bs).cond = s.cond := rfl
@[simp] theorem State.run_conWrite (bs : List Byte) : (s.conWrite bs).run = s.run := rfl
@[simp] theorem State.mem_conWrite (bs : List Byte) : (s.conWrite bs).mem = s.mem := rfl
@[simp] theorem State.promptShown_conWrite (bs : List Byte) : (s.conWrite bs).promptShown = s.promptShown := rfl
@[simp] theorem State.reg_conWrite (bs : List Byte) (q : Reg) : (s.conWrite bs).reg q = s.reg q := rfl
@[simp] theorem State.cell_conWrite (bs : List Byte) (x : Word) : (s.conWrite bs).cell x = s.cell x := rfl
@[simp] theorem State.pc_conFlush : (s.conFlush).pc = s.pc := rfl
@[simp] theorem State.cond_conFlush : (s.conFlush).cond = s.cond := rfl
@[simp] theorem State.run_conFlush : (s.conFlush).run = s.run := rfl
@[simp] theorem State.mem_conFlush : (s.conFlush).mem = s.mem := rfl
@[simp] theorem State.promptShown_conFlush : (s.conFlush).promptShown = s.promptShown := rfl
@[simp] theorem State.reg_conFlush (q : Reg) : (s.conFlush).reg q = s.reg q := rfl
@[simp] theorem State.cell_conFlush (x : Word) : (s.conFlush).cell x = s.cell x := rfl
@[simp] theorem State.console_conWrite (bs : List Byte) : (s.conWrite bs).console = s.console.write bs := rfl
@[simp] theorem State.console_conFlush : s.conFlush.console = s.console.flush := rfl

/-! ### The console's fields -/

variable (c : Console)

@[simp] theorem Console.input_write (bs : List Byte) : (c.write bs).input = c.input := rfl
@[simp] theorem Console.ended_write (bs : List Byte) : (c.write bs).ended = c.ended := rfl
@[simp] theorem Console.polls_write (bs : List Byte) : (c.write bs).polls = c.polls := rfl
@[simp] theorem Console.pollRest_write (bs : List Byte) : (c.write bs).pollRest = c.pollRest := rfl
@[simp] theorem Console.output_write (bs : List Byte) :
    (c.write bs).output = c.output ++ bs.map ConsoleOut.byte := rfl
@[simp] theorem Console.input_flush : c.flush.input = c.input := rfl
@[simp] theorem Console.ended_flush : c.flush.ended = c.ended := rfl
@[simp] theorem Console.polls_flush : c.flush.polls = c.polls := rfl
@[simp] theorem Console.pollRest_flush : c.flush.pollRest = c.pollRest := rfl
@[simp] theorem Console.output_flush : c.flush.output = c.output ++ [.flush] := rfl
@[simp] theorem Console.input_afterRead : c.afterRead.input = c.input.tail := rfl
@[simp] theorem Console.ended_afterRead : c.afterRead.ended = c.ended := rfl
@[simp] theorem Console.polls_afterRead : c.afterRead.polls = c.polls := rfl
@[simp] theorem Console.pollRest_afterRead : c.afterRead.pollRest = c.pollRest := rfl
@[simp] theorem Console.output_afterRead : c.afterRead.output = c.output := rfl
@[simp] theorem Console.input_poll : c.poll.2.input = c.input := rfl
@[simp] theorem Console.ended_poll : c.poll.2.ended = c.ended := rfl
@[simp] theorem Console.polls_poll : c.poll.2.polls = c.polls.tail := rfl
@[simp] theorem Console.pollRest_poll : c.poll.2.pollRest = c.pollRest := rfl
@[simp] theorem Console.output_poll : c.poll.2.output = c.output := rfl
@[simp] theorem Console.readable_poll : c.poll.2.readable = c.readable := rfl
@[simp] theorem Console.readable_write (bs : List Byte) : (c.write bs).readable = c.readable := rfl
@[simp] theorem Console.readable_flush : c.flush.readable = c.readable := rfl
@[simp] theorem Console.nextWord_poll : c.poll.2.nextWord = c.nextWord := rfl
@[simp] theorem Console.nextWord_write (bs : List Byte) : (c.write bs).nextWord = c.nextWord := rfl
@[simp] theorem Console.nextWord_flush : c.flush.nextWord = c.nextWord := rfl

/-- Writing nothing changes nothing. -/
@[simp] theorem Console.write_nil : c.write [] = c := by simp [Console.write]

/-- Two writes are one write of both strings, so a string may be written byte by byte (R138). -/
@[simp] theorem Console.write_write (xs ys : List Byte) : (c.write xs).write ys = c.write (xs ++ ys) := by
  simp [Console.write]

@[simp] theorem State.conWrite_nil : s.conWrite [] = s := by simp [State.conWrite, State.setConsole]

@[simp] theorem State.conWrite_conWrite (xs ys : List Byte) :
    (s.conWrite xs).conWrite ys = s.conWrite (xs ++ ys) := by
  simp [State.conWrite, State.setConsole]

end Sys2Proof.Machine
end

