-- ==== Sys2Proof/Laws/Memory.lean ====
section
/-!
SUPPORT. The memory list: what a lookup gives after an insert, and that an insert keeps the canonical form.
-/

namespace Sys2Proof.Machine

theorem Memory.lookup_insert (m : Memory) (a b : Nat) (v : Word) :
    (m.insert a v).lookup b = if b = a then some v else m.lookup b := by
  induction m with
  | nil => simp [Memory.insert, Memory.lookup]
  | cons c m ih =>
    obtain ⟨k, w⟩ := c
    simp only [Memory.insert]
    split
    · simp [Memory.lookup]
    · split
      · subst_vars; by_cases h : b = k <;> simp [Memory.lookup, h]
      · simp only [Memory.lookup, ih]
        by_cases hk : b = k
        · subst hk; rw [if_pos rfl, if_neg (by omega), if_pos rfl]
        · simp [hk]

/-- Every address an insert lists was listed before or is the new one. -/
theorem Memory.mem_insert {m : Memory} {a : Nat} {v : Word} {c : Nat × Word} (h : c ∈ m.insert a v) :
    c = (a, v) ∨ c ∈ m := by
  induction m with
  | nil => simpa [Memory.insert] using h
  | cons d m ih =>
    obtain ⟨k, w⟩ := d
    simp only [Memory.insert] at h
    split at h
    · simpa using h
    · split at h
      · rcases List.mem_cons.mp h with h | h
        · exact .inl h
        · exact .inr (List.mem_cons_of_mem _ h)
      · rcases List.mem_cons.mp h with h | h
        · exact .inr (by simp [h])
        · exact (ih h).imp id (List.mem_cons_of_mem _)

/-- An insert inside the address space keeps the canonical form. -/
theorem Memory.wf_insert {m : Memory} (hm : m.wf) {a : Nat} (ha : a < Config.memSize) (v : Word) :
    (m.insert a v).wf := by
  refine ⟨?_, fun c hc => ?_⟩
  · obtain ⟨hp, -⟩ := hm
    induction m with
    | nil => simp [Memory.insert]
    | cons d m ih =>
      obtain ⟨k, w⟩ := d
      obtain ⟨hd, hp⟩ := List.pairwise_cons.mp hp
      simp only [Memory.insert]
      split
      · rename_i hlt
        refine List.pairwise_cons.mpr ⟨fun c hc => ?_, List.pairwise_cons.mpr ⟨hd, hp⟩⟩
        rcases List.mem_cons.mp hc with rfl | hc
        · exact hlt
        · exact lt_trans hlt (hd c hc)
      · split
        · subst_vars; exact List.pairwise_cons.mpr ⟨hd, hp⟩
        · refine List.pairwise_cons.mpr ⟨fun c hc => ?_, ih hp⟩
          rcases Memory.mem_insert hc with rfl | hc
          · show k < a; omega
          · exact hd c hc
  · rcases Memory.mem_insert hc with rfl | hc
    · exact ha
    · exact hm.2 c hc

theorem Memory.wf_nil : Memory.wf [] := by simp [Memory.wf]

@[simp] theorem State.cell_memWrite (s : State) (a v b : Word) :
    (s.memWrite a v).cell b = if b = a then v else s.cell b := by
  simp only [State.cell, State.mem_memWrite, Memory.lookup_insert, BitVec.toNat_inj]
  split <;> simp

/-- A store keeps the canonical form: every 16-bit address is inside the address space (R40). -/
theorem State.wf_memWrite {s : State} (h : s.mem.wf) (a v : Word) : (s.memWrite a v).mem.wf :=
  Memory.wf_insert h (by simpa [Config.memSize] using a.isLt) v

end Sys2Proof.Machine
end

