-- ==== Sys2Proof/Laws/Ops.lean ====
section
/-!
SUPPORT. What each shared operation can do, said once: the poll, the read primitive, the fetch, the console read and the
image load.
-/

namespace Sys2Proof.Machine

variable (s : State)

/-! ### The poll and the read primitive (R43, R45) -/

/-- A poll answers true only if a read would not block (R136). -/
theorem Console.readable_of_poll {c : Console} (h : c.poll.1 = true) : c.readable = true := by
  simp only [Console.poll, Bool.and_eq_true] at h; exact h.1

@[simp] theorem State.pc_pollKeyboard : s.pollKeyboard.pc = s.pc := by unfold State.pollKeyboard; split <;> rfl
@[simp] theorem State.cond_pollKeyboard : s.pollKeyboard.cond = s.cond := by unfold State.pollKeyboard; split <;> rfl
@[simp] theorem State.run_pollKeyboard : s.pollKeyboard.run = s.run := by unfold State.pollKeyboard; split <;> rfl
@[simp] theorem State.promptShown_pollKeyboard : s.pollKeyboard.promptShown = s.promptShown := by
  unfold State.pollKeyboard; split <;> rfl
@[simp] theorem State.regs_pollKeyboard : s.pollKeyboard.regs = s.regs := by unfold State.pollKeyboard; split <;> rfl
@[simp] theorem State.reg_pollKeyboard (q : Reg) : s.pollKeyboard.reg q = s.reg q := by simp [State.reg]
@[simp] theorem State.output_pollKeyboard : s.pollKeyboard.console.output = s.console.output := by
  unfold State.pollKeyboard; split <;> rfl
@[simp] theorem State.ended_pollKeyboard : s.pollKeyboard.console.ended = s.console.ended := by
  unfold State.pollKeyboard; split <;> rfl
@[simp] theorem State.polls_pollKeyboard : s.pollKeyboard.console.polls = s.console.polls.tail := by
  unfold State.pollKeyboard; split <;> rfl
@[simp] theorem State.pollRest_pollKeyboard : s.pollKeyboard.console.pollRest = s.console.pollRest := by
  unfold State.pollKeyboard; split <;> rfl
theorem State.input_pollKeyboard :
    s.pollKeyboard.console.input = if s.console.poll.1 then s.console.input.tail else s.console.input := by
  unfold State.pollKeyboard; split <;> rfl

/-- What the poll leaves in each cell. -/
theorem State.cell_pollKeyboard (x : Word) :
    s.pollKeyboard.cell x =
      if x = Config.kbsr then (if s.console.poll.1 then Config.kbsrReady else 0)
      else if x = Config.kbdr ∧ s.console.poll.1 then s.console.nextWord else s.cell x := by
  have hne : Config.kbsr ≠ Config.kbdr := by decide
  unfold State.pollKeyboard
  by_cases hp : s.console.poll.1 <;> by_cases hx : x = Config.kbsr <;> by_cases hy : x = Config.kbdr <;> simp_all

theorem State.wf_pollKeyboard (h : s.mem.wf) : s.pollKeyboard.mem.wf := by
  unfold State.pollKeyboard
  split
  · exact State.wf_memWrite (State.wf_memWrite (by exact h) _ _) _ _
  · exact State.wf_memWrite (by exact h) _ _

/-- A read of any other address has no side effect (R45, R49). -/
theorem State.touch_of_ne {a : Word} (h : a ≠ Config.kbsr) : s.touch a = s := if_neg h

theorem State.touch_kbsr : s.touch Config.kbsr = s.pollKeyboard := if_pos rfl

section touch
variable (a : Word)
@[simp] theorem State.pc_touch : (s.touch a).pc = s.pc := by unfold State.touch; split <;> simp
@[simp] theorem State.cond_touch : (s.touch a).cond = s.cond := by unfold State.touch; split <;> simp
@[simp] theorem State.run_touch : (s.touch a).run = s.run := by unfold State.touch; split <;> simp
@[simp] theorem State.promptShown_touch : (s.touch a).promptShown = s.promptShown := by
  unfold State.touch; split <;> simp
@[simp] theorem State.regs_touch : (s.touch a).regs = s.regs := by unfold State.touch; split <;> simp
@[simp] theorem State.reg_touch (q : Reg) : (s.touch a).reg q = s.reg q := by simp [State.reg]
@[simp] theorem State.output_touch : (s.touch a).console.output = s.console.output := by
  unfold State.touch; split <;> simp
theorem State.wf_touch (h : s.mem.wf) : (s.touch a).mem.wf := by
  unfold State.touch; split
  · exact s.wf_pollKeyboard h
  · exact h
end touch

@[simp] theorem State.memRead_snd (a : Word) : (s.memRead a).2 = s.touch a := rfl
theorem State.memRead_fst (a : Word) : (s.memRead a).1 = (s.touch a).cell a := rfl

/-- R45: a read of any address but the status port returns the cell and changes nothing. -/
theorem State.memRead_of_ne {a : Word} (h : a ≠ Config.kbsr) : s.memRead a = (s.cell a, s) := by
  simp [State.memRead, s.touch_of_ne h]

/-- R43: a read of the status port returns the ready value or zero. -/
theorem State.memRead_kbsr :
    s.memRead Config.kbsr = (if s.console.poll.1 then Config.kbsrReady else 0, s.pollKeyboard) := by
  simp [State.memRead, s.touch_kbsr, s.cell_pollKeyboard]

/-- R45: only the two port cells can differ after a read. -/
theorem State.cell_touch_of_ne {x : Word} (a : Word) (h1 : x ≠ Config.kbsr) (h2 : x ≠ Config.kbdr) :
    (s.touch a).cell x = s.cell x := by
  unfold State.touch; split
  · simp [s.cell_pollKeyboard, h1, h2]
  · rfl

@[simp] theorem State.fetch_snd : s.fetch.2 = (s.touch s.pc).setPc (s.pc + 1) := rfl
@[simp] theorem State.fetch_fst : s.fetch.1 = (s.memRead s.pc).1 := rfl

/-! ### The console read (R137) -/

theorem State.conRead_of_readable (h : s.console.readable = true) :
    s.conRead = some (s.console.nextWord, s.setConsole s.console.afterRead) := by
  simp [State.conRead, h]

theorem State.conRead_of_not_readable (h : s.console.readable = false) : s.conRead = none := by
  simp [State.conRead, h]

/-! ### The image load (R168) -/

theorem State.storeWords_frame (ws : List Word) (a : Nat) :
    (s.storeWords a ws).regs = s.regs ∧ (s.storeWords a ws).pc = s.pc ∧ (s.storeWords a ws).cond = s.cond ∧
      (s.storeWords a ws).run = s.run ∧ (s.storeWords a ws).console = s.console ∧
      (s.storeWords a ws).promptShown = s.promptShown := by
  induction ws generalizing a s with
  | nil => simp [State.storeWords]
  | cons w ws ih =>
    unfold State.storeWords
    split
    · exact ih (s.memWrite (BitVec.ofNat 16 a) w) (a + 1)
    · simp

theorem State.wf_storeWords (h : s.mem.wf) (ws : List Word) (a : Nat) : (s.storeWords a ws).mem.wf := by
  induction ws generalizing a s with
  | nil => simpa [State.storeWords] using h
  | cons w ws ih =>
    unfold State.storeWords
    split
    · exact ih _ (State.wf_memWrite h _ _) _
    · exact h

end Sys2Proof.Machine
end

