-- ==== Sys2Proof/Laws/PerInstr.lean ====
section
/-!
SUPPORT. Statements made for each instruction as a term, one lemma for each constructor.
-/

namespace Sys2Proof.Laws.EncodedOpcode

/-- The opcode the map of R66 gives each instruction. -/
def tableOpcode : Instr → Opcode
  | .addReg _ _ _ => .add
  | .addImm _ _ _ => .add
  | .andReg _ _ _ => .and
  | .andImm _ _ _ => .and
  | .not _ _ => .not
  | .br _ _ _ _ => .br
  | .jmp _ => .jmp
  | .jsr _ => .jsr
  | .jsrr _ => .jsr
  | .ld _ _ => .ld
  | .ldi _ _ => .ldi
  | .ldr _ _ _ => .ldr
  | .lea _ _ => .lea
  | .st _ _ => .st
  | .sti _ _ => .sti
  | .str _ _ _ => .str
  | .trap _ => .trap
  | .trapGetc => .trap
  | .trapOut => .trap
  | .trapPuts => .trap
  | .trapIn => .trap
  | .trapPutsp => .trap
  | .trapHalt => .trap
  | .rti _ => .rti
  | .res _ => .res

/-- R61, R66: bits [15:12] of the word the encoder gives hold the opcode of the map. -/
def Statement (i : Instr) : Prop := opcodeOf (encode i) = tableOpcode i

/-- Enough for a word: its top four bits. -/
theorem of_top {w : Word} {o : BitVec 4} (h : w.toNat / 4096 % 16 = o.toNat) : opcodeOf w = Opcode.ofBits o := by
  unfold opcodeOf
  congr 1
  apply BitVec.eq_of_toNat_eq
  rw [BitVec.extractLsb'_toNat, Nat.shiftRight_eq_div_pow]
  exact h

theorem addReg (dr : Reg) (sr1 : Reg) (sr2 : Reg) : Statement (.addReg dr sr1 sr2) := by
  refine of_top (o := 1#4) ?_
  simp only [encode, append_toNat]
  simp
  omega

theorem addImm (dr : Reg) (sr1 : Reg) (imm5 : BitVec 5) : Statement (.addImm dr sr1 imm5) := by
  refine of_top (o := 1#4) ?_
  simp only [encode, append_toNat]
  simp
  omega

theorem andReg (dr : Reg) (sr1 : Reg) (sr2 : Reg) : Statement (.andReg dr sr1 sr2) := by
  refine of_top (o := 5#4) ?_
  simp only [encode, append_toNat]
  simp
  omega

theorem andImm (dr : Reg) (sr1 : Reg) (imm5 : BitVec 5) : Statement (.andImm dr sr1 imm5) := by
  refine of_top (o := 5#4) ?_
  simp only [encode, append_toNat]
  simp
  omega

theorem not (dr : Reg) (sr : Reg) : Statement (.not dr sr) := by
  refine of_top (o := 9#4) ?_
  simp only [encode, append_toNat]
  simp
  omega

theorem br (n : Bool) (z : Bool) (p : Bool) (pcOffset9 : BitVec 9) : Statement (.br n z p pcOffset9) := by
  refine of_top (o := 0#4) ?_
  simp only [encode, append_toNat]
  simp
  cases n <;> cases z <;> cases p <;> simp <;> omega

theorem jmp (baseR : Reg) : Statement (.jmp baseR) := by
  refine of_top (o := 12#4) ?_
  simp only [encode, append_toNat]
  simp
  omega

theorem jsr (pcOffset11 : BitVec 11) : Statement (.jsr pcOffset11) := by
  refine of_top (o := 4#4) ?_
  simp only [encode, append_toNat]
  simp
  omega

theorem jsrr (baseR : Reg) : Statement (.jsrr baseR) := by
  refine of_top (o := 4#4) ?_
  simp only [encode, append_toNat]
  simp
  omega

theorem ld (dr : Reg) (pcOffset9 : BitVec 9) : Statement (.ld dr pcOffset9) := by
  refine of_top (o := 2#4) ?_
  simp only [encode, append_toNat]
  simp
  omega

theorem ldi (dr : Reg) (pcOffset9 : BitVec 9) : Statement (.ldi dr pcOffset9) := by
  refine of_top (o := 10#4) ?_
  simp only [encode, append_toNat]
  simp
  omega

theorem ldr (dr : Reg) (baseR : Reg) (offset6 : BitVec 6) : Statement (.ldr dr baseR offset6) := by
  refine of_top (o := 6#4) ?_
  simp only [encode, append_toNat]
  simp
  omega

theorem lea (dr : Reg) (pcOffset9 : BitVec 9) : Statement (.lea dr pcOffset9) := by
  refine of_top (o := 14#4) ?_
  simp only [encode, append_toNat]
  simp
  omega

theorem st (sr : Reg) (pcOffset9 : BitVec 9) : Statement (.st sr pcOffset9) := by
  refine of_top (o := 3#4) ?_
  simp only [encode, append_toNat]
  simp
  omega

theorem sti (sr : Reg) (pcOffset9 : BitVec 9) : Statement (.sti sr pcOffset9) := by
  refine of_top (o := 11#4) ?_
  simp only [encode, append_toNat]
  simp
  omega

theorem str (sr : Reg) (baseR : Reg) (offset6 : BitVec 6) : Statement (.str sr baseR offset6) := by
  refine of_top (o := 7#4) ?_
  simp only [encode, append_toNat]
  simp
  omega

theorem trap (trapvect8 : BitVec 8) : Statement (.trap trapvect8) := by
  refine of_top (o := 15#4) ?_
  simp only [encode, append_toNat]
  simp
  omega
theorem trapGetc : Statement (.trapGetc) := rfl
theorem trapOut : Statement (.trapOut) := rfl
theorem trapPuts : Statement (.trapPuts) := rfl
theorem trapIn : Statement (.trapIn) := rfl
theorem trapPutsp : Statement (.trapPutsp) := rfl
theorem trapHalt : Statement (.trapHalt) := rfl

theorem rti (low : BitVec 12) : Statement (.rti low) := by
  refine of_top (o := 8#4) ?_
  simp only [encode, append_toNat]
  simp
  omega

theorem res (low : BitVec 12) : Statement (.res low) := by
  refine of_top (o := 13#4) ?_
  simp only [encode, append_toNat]
  simp
  omega

end Sys2Proof.Laws.EncodedOpcode
end

