-- ==== Sys2Proof/Laws/Walk.lean ====
section
/-!
SUPPORT. The string walk of PUTS and PUTSP (R128, R130): more fuel never changes what it gives, what it leaves alone, and
`walkFuel` is enough: a walk that ends at all ends within it.
-/

namespace Sys2Proof.Machine

variable {emit : Word → List Byte}

/-- The state after one turn of the loop at `p`. -/
def State.walkTurn (emit : Word → List Byte) (s : State) (p : Word) : State :=
  (s.touch p).conWrite (emit (s.memRead p).1)

/-- The next address, counted from one further on. -/
theorem addr_succ (p : Word) (j : Nat) : p + 1 + BitVec.ofNat 16 j = p + BitVec.ofNat 16 (j + 1) := by
  apply BitVec.eq_of_toNat_eq; simp; omega

theorem State.walkString_succ (k : Nat) (p : Word) (s : State) :
    State.walkString emit (k + 1) p s =
      if (s.memRead p).1 = 0 then some (s.touch p) else State.walkString emit k (p + 1) (s.walkTurn emit p) := rfl

/-- More fuel gives the same answer. -/
theorem State.walkString_mono {k m : Nat} {p : Word} {s t : State} (hkm : k ≤ m)
    (h : State.walkString emit k p s = some t) : State.walkString emit m p s = some t := by
  induction k generalizing m p s with
  | zero => simp [State.walkString] at h
  | succ k ih =>
    obtain ⟨m, rfl⟩ : ∃ j, m = j + 1 := ⟨m - 1, by omega⟩
    rw [State.walkString_succ] at h ⊢
    split
    · rename_i hz; rwa [if_pos hz] at h
    · rename_i hz; rw [if_neg hz] at h; exact ih (by omega) h

/-- What a walk leaves alone: registers, PC, COND, the run state, the hold mark, and every cell but the two ports. -/
theorem State.walkString_frame {k : Nat} {p : Word} {s t : State} (h : State.walkString emit k p s = some t) :
    t.regs = s.regs ∧ t.pc = s.pc ∧ t.cond = s.cond ∧ t.run = s.run ∧ t.promptShown = s.promptShown ∧
      ∀ x, x ≠ Config.kbsr → x ≠ Config.kbdr → t.cell x = s.cell x := by
  induction k generalizing p s with
  | zero => simp [State.walkString] at h
  | succ k ih =>
    rw [State.walkString_succ] at h
    split at h
    · obtain rfl := Option.some.inj h
      refine ⟨s.regs_touch p, s.pc_touch p, s.cond_touch p, s.run_touch p, s.promptShown_touch p, fun x h1 h2 => ?_⟩
      exact s.cell_touch_of_ne p h1 h2
    · obtain ⟨h1, h2, h3, h4, h5, h6⟩ := ih h
      refine ⟨?_, ?_, ?_, ?_, ?_, fun x hx hy => ?_⟩
      · exact h1.trans (s.regs_touch p)
      · exact h2.trans (s.pc_touch p)
      · exact h3.trans (s.cond_touch p)
      · exact h4.trans (s.run_touch p)
      · exact h5.trans (s.promptShown_touch p)
      · exact (h6 x hx hy).trans (s.cell_touch_of_ne p hx hy)

theorem State.wf_walkString {k : Nat} {p : Word} {s t : State} (hs : s.mem.wf)
    (h : State.walkString emit k p s = some t) : t.mem.wf := by
  induction k generalizing p s with
  | zero => simp [State.walkString] at h
  | succ k ih =>
    rw [State.walkString_succ] at h
    split at h
    · obtain rfl := Option.some.inj h; exact s.wf_touch p hs
    · exact ih (s := s.walkTurn emit p) (s.wf_touch p hs) h

/-- Away from the status port a walk only writes to the console: over `d` addresses that do not hold the port it either
stops there or comes out on the far side with more output. -/
theorem State.walkString_segment (d : Nat) (p : Word) (s : State)
    (hd : ∀ j, j < d → p + BitVec.ofNat 16 j ≠ Config.kbsr) :
    (∃ t, State.walkString emit d p s = some t) ∨
      ∃ bs, ∀ m, State.walkString emit (d + m) p s =
        State.walkString emit m (p + BitVec.ofNat 16 d) (s.conWrite bs) := by
  induction d generalizing p s with
  | zero => exact .inr ⟨[], fun m => by simp⟩
  | succ d ih =>
    have hp : p ≠ Config.kbsr := by simpa using hd 0 (by omega)
    by_cases hz : (s.memRead p).1 = 0
    · exact .inl ⟨s.touch p, by rw [State.walkString_succ, if_pos hz]⟩
    · have hturn : s.walkTurn emit p = s.conWrite (emit (s.memRead p).1) := by
        simp [State.walkTurn, s.touch_of_ne hp]
      rcases ih (p + 1) (s.walkTurn emit p) (fun j hj => by rw [addr_succ]; exact hd (j + 1) (by omega)) with
        ⟨t, ht⟩ | ⟨bs, hbs⟩
      · exact .inl ⟨t, by rw [State.walkString_succ, if_neg hz, ht]⟩
      · refine .inr ⟨emit (s.memRead p).1 ++ bs, fun m => ?_⟩
        rw [show d + 1 + m = (d + m) + 1 by omega, State.walkString_succ, if_neg hz, hbs, addr_succ, hturn,
          State.conWrite_conWrite]

/-- The environment and the ports have come to rest: the input has ended, every further poll answers true, and the ports
already hold what such a poll writes. -/
def State.atRest (s : State) : Prop :=
  s.console.input = [] ∧ s.console.polls = [] ∧ s.console.ended = true ∧ s.console.pollRest = true ∧
    s.cell Config.kbsr = Config.kbsrReady ∧ s.cell Config.kbdr = Config.eofSentinel

theorem State.poll_of_atRest {s : State} (h : s.atRest) : s.console.poll.1 = true := by
  obtain ⟨-, h2, h3, h4, -⟩ := h
  simp [Console.poll, Console.readable, h2, h3, h4]

/-- At rest a read changes no cell and stays at rest. -/
theorem State.touch_of_atRest {s : State} (h : s.atRest) (a : Word) :
    (s.touch a).atRest ∧ ∀ x, (s.touch a).cell x = s.cell x := by
  by_cases ha : a = Config.kbsr
  · subst ha
    have hp := State.poll_of_atRest h
    obtain ⟨h1, h2, h3, h4, h5, h6⟩ := h
    have hn : s.console.nextWord = Config.eofSentinel := by simp [Console.nextWord, h1]
    have hc : ∀ x, s.pollKeyboard.cell x = s.cell x := fun x => by
      rw [s.cell_pollKeyboard, hp, hn]
      split
      · subst_vars; exact h5.symm
      · split
        · rename_i h; rw [h.1, h6]
        · rfl
    rw [s.touch_kbsr]
    exact ⟨⟨by simp [s.input_pollKeyboard, h1], by simp [h2], by simp [h3], by simp [h4], by rw [hc, h5],
      by rw [hc, h6]⟩, hc⟩
  · rw [s.touch_of_ne ha]; exact ⟨h, fun _ => rfl⟩

theorem State.walkTurn_of_atRest {s : State} (h : s.atRest) (p : Word) :
    (s.walkTurn emit p).atRest ∧ ∀ x, (s.walkTurn emit p).cell x = s.cell x :=
  State.touch_of_atRest h p

/-- At rest a walk ends exactly when it meets a cell that is zero. -/
theorem State.walkString_atRest_iff {s : State} (h : s.atRest) (k : Nat) (p : Word) :
    (State.walkString emit k p s).isSome ↔ ∃ j, j < k ∧ s.cell (p + BitVec.ofNat 16 j) = 0 := by
  induction k generalizing p s with
  | zero => simp [State.walkString]
  | succ k ih =>
    have hr : (s.memRead p).1 = s.cell p := (State.touch_of_atRest h p).2 p
    rw [State.walkString_succ, hr]
    split
    · rename_i hz; simp only [Option.isSome_some, true_iff]; exact ⟨0, by omega, by simpa using hz⟩
    · rename_i hz
      rw [ih (State.walkTurn_of_atRest h p).1]
      constructor
      · rintro ⟨j, hj, hc⟩
        exact ⟨j + 1, by omega, by rw [← addr_succ, ← (State.walkTurn_of_atRest (emit := emit) h p).2]; exact hc⟩
      · rintro ⟨j, hj, hc⟩
        match j with
        | 0 => exact absurd (by simpa using hc) hz
        | j + 1 =>
          exact ⟨j, by omega, by rw [(State.walkTurn_of_atRest h p).2, addr_succ]; exact hc⟩

/-- At rest one lap decides. -/
theorem State.walkString_atRest {s : State} (h : s.atRest) {k : Nat} {p : Word}
    (hk : (State.walkString emit k p s).isSome) : (State.walkString emit 65536 p s).isSome := by
  obtain ⟨j, -, hj⟩ := (State.walkString_atRest_iff h k p).mp hk
  refine (State.walkString_atRest_iff h _ p).mpr ⟨j % 65536, Nat.mod_lt _ (by omega), ?_⟩
  rwa [show BitVec.ofNat 16 (j % 65536) = BitVec.ofNat 16 j by
    apply BitVec.eq_of_toNat_eq; simp [BitVec.toNat_ofNat]]

/-- How many characters and poll answers the environment still holds. -/
def Console.pending (c : Console) : Nat := c.input.length + c.polls.length

/-- One lap: from anywhere the walk ends, or reaches the status port, where a poll that answers false ends it and one
that answers true sends it on. `B` is fuel enough for what comes after that poll. -/
theorem State.walkString_lap {s : State} {k B : Nat} {p : Word}
    (next : ∀ bs, (s.conWrite bs).console.poll.1 = true → ∀ k q,
      (State.walkString emit k q ((s.conWrite bs).walkTurn emit Config.kbsr)).isSome →
      (State.walkString emit B q ((s.conWrite bs).walkTurn emit Config.kbsr)).isSome)
    (hk : (State.walkString emit k p s).isSome) : (State.walkString emit (65536 + B) p s).isSome := by
  have mono : ∀ {k m : Nat} {q : Word} {u : State}, k ≤ m → (State.walkString emit k q u).isSome →
      (State.walkString emit m q u).isSome := fun hkm h => by
    obtain ⟨t, ht⟩ := Option.isSome_iff_exists.mp h
    rw [State.walkString_mono hkm ht]; rfl
  obtain ⟨d, hd⟩ : ∃ d, d = (Config.kbsr - p).toNat := ⟨_, rfl⟩
  have hlt : d < 65536 := hd ▸ (Config.kbsr - p).isLt
  have hport : p + BitVec.ofNat 16 d = Config.kbsr := by
    rw [hd, BitVec.ofNat_toNat, BitVec.setWidth_eq]; ring
  have hbefore : ∀ j, j < d → p + BitVec.ofNat 16 j ≠ Config.kbsr := fun j hj h => by
    have : BitVec.ofNat 16 j = BitVec.ofNat 16 d := by
      have := h.trans hport.symm; simpa using this
    have := congrArg BitVec.toNat this
    simp only [BitVec.toNat_ofNat] at this
    omega
  rcases State.walkString_segment d p s hbefore with ⟨t, ht⟩ | ⟨bs, hbs⟩
  · exact mono (k := d) (by omega) (by rw [ht]; rfl)
  · rw [hport] at hbs
    have hmem : ((s.conWrite bs).memRead Config.kbsr).1
        = if (s.conWrite bs).console.poll.1 then Config.kbsrReady else 0 := by rw [State.memRead_kbsr]
    cases hp : (s.conWrite bs).console.poll.1
    · refine mono (k := d + 1) (by omega) ?_
      rw [hbs, State.walkString_succ, hmem, hp]; rfl
    · have hne : ¬ ((s.conWrite bs).memRead Config.kbsr).1 = 0 := by rw [hmem, hp]; decide
      have h1 := mono (m := d + (k + 1)) (by omega) hk
      rw [hbs, State.walkString_succ, if_neg hne] at h1
      refine mono (k := d + (B + 1)) (by omega) ?_
      rw [hbs, State.walkString_succ, if_neg hne]
      exact next bs hp k _ h1

/-- Within `65536 * (n + 2)` words a walk has ended if it ends at all, `n` being what the environment still holds. -/
theorem State.walkString_bound (n : Nat) (s : State) (hn : s.console.pending ≤ n) (k : Nat) (p : Word)
    (hk : (State.walkString emit k p s).isSome) :
    (State.walkString emit (65536 * (n + 2)) p s).isSome := by
  induction n generalizing s k p with
  | zero =>
    refine State.walkString_lap (B := 65536) (fun bs hp k q hk => State.walkString_atRest ?_ hk) hk
    have hr := Console.readable_of_poll hp
    have hi : s.console.input = [] := by
      apply List.eq_nil_of_length_eq_zero; simp only [Console.pending] at hn; omega
    have hq : s.console.polls = [] := by
      apply List.eq_nil_of_length_eq_zero; simp only [Console.pending] at hn; omega
    have hrest : s.console.pollRest = true := by
      simp [Console.poll, hq] at hp; exact hp.2
    have hended : s.console.ended = true := by
      simpa [Console.readable, hi] using hr
    have hne : Config.kbdr ≠ Config.kbsr := by decide
    refine ⟨?_, ?_, ?_, ?_, ?_, ?_⟩ <;>
      simp_all [State.walkTurn, State.touch_kbsr, State.input_pollKeyboard, State.cell_pollKeyboard, Console.nextWord]
  | succ n ih =>
    rw [show 65536 * (n + 1 + 2) = 65536 + 65536 * (n + 2) by ring]
    refine State.walkString_lap (fun bs hp k q hk => ih _ ?_ k q hk) hk
    have hi : ((s.conWrite bs).pollKeyboard).console.input = s.console.input.tail := by
      rw [State.input_pollKeyboard, if_pos hp]; rfl
    simp only [Console.pending, State.walkTurn, State.touch_kbsr, State.console_conWrite, Console.input_write,
      Console.polls_write, hi, State.polls_pollKeyboard, List.length_tail] at hn ⊢
    omega

/-- The fuel the meaning gives a walk is enough: with more fuel, however much, it would end the same. -/
theorem State.walkString_walkFuel {k : Nat} {p : Word} {s t : State}
    (h : State.walkString emit k p s = some t) : State.walkString emit s.walkFuel p s = some t := by
  have hb := State.walkString_bound s.console.pending s le_rfl k p (by rw [h]; rfl)
  obtain ⟨u, hu⟩ := Option.isSome_iff_exists.mp hb
  have hle : 65536 * (s.console.pending + 2) ≤ s.walkFuel := by
    simp only [State.walkFuel, Config.memSize, Console.pending]; omega
  rw [State.walkString_mono hle hu]
  rcases Nat.le_total k (65536 * (s.console.pending + 2)) with hk | hk
  · rw [← hu, State.walkString_mono hk h]
  · rw [← h, State.walkString_mono hk hu]

end Sys2Proof.Machine
end

