-- ==== Sys2Proof/Laws/Trap.lean ====
section
/-!
SUPPORT. What each trap service that reads the console or memory can do, said once: GETC, IN and the walk of PUTS and PUTSP.
-/

namespace Sys2Proof.Machine

variable (s : State)

/-! ### GETC and IN (R126, R129, R159) -/

/-- GETC delivers a word to R0, or takes back the fetch increment while the read blocks. -/
theorem State.serviceGetc_cases :
    (s.console.readable = true ∧
      s.serviceGetc = (s.setConsole s.console.afterRead).setReg .r0 s.console.nextWord) ∨
    (s.console.readable = false ∧ s.serviceGetc = s.setPc (s.pc - 1)) := by
  cases h : s.console.readable
  · exact .inr ⟨rfl, by simp [State.serviceGetc, State.conRead, h, State.holdStep]⟩
  · exact .inl ⟨rfl, by simp [State.serviceGetc, State.conRead, h]⟩

/-- What IN's prompt writes: nothing the second time. -/
def Console.prompted (c : Console) (shown : Bool) : Console :=
  if shown then c else (c.write Config.inPrompt).flush

@[simp] theorem Console.input_prompted (c : Console) (b : Bool) : (c.prompted b).input = c.input := by
  cases b <;> rfl
@[simp] theorem Console.ended_prompted (c : Console) (b : Bool) : (c.prompted b).ended = c.ended := by
  cases b <;> rfl
@[simp] theorem Console.readable_prompted (c : Console) (b : Bool) : (c.prompted b).readable = c.readable := by
  cases b <;> rfl
@[simp] theorem Console.nextWord_prompted (c : Console) (b : Bool) : (c.prompted b).nextWord = c.nextWord := by
  cases b <;> rfl

/-- The prompt changes the console and the model's mark, nothing else. -/
theorem State.showPrompt_eq :
    s.showPrompt = (s.setConsole (s.console.prompted s.promptShown)).setPromptShown true := by
  unfold State.showPrompt Console.prompted
  split
  · rename_i h; cases s; simp_all [State.setConsole, State.setPromptShown]
  · rfl

/-- IN prompts, then delivers and echoes a word, or takes back the fetch increment while the read blocks. -/
theorem State.serviceIn_cases :
    (s.console.readable = true ∧
      s.serviceIn = ((s.setConsole
        (((s.console.prompted s.promptShown).afterRead.write [lowByte s.console.nextWord]).flush)).setReg .r0
          s.console.nextWord).setPromptShown false) ∨
    (s.console.readable = false ∧
      s.serviceIn =
        ((s.setConsole (s.console.prompted s.promptShown)).setPromptShown true).setPc (s.pc - 1)) := by
  cases h : s.console.readable
  · exact .inr ⟨rfl, by simp [State.serviceIn, State.showPrompt_eq, State.conRead, h, State.holdStep]⟩
  · refine .inl ⟨rfl, ?_⟩
    simp only [State.serviceIn, State.showPrompt_eq, State.conRead, State.console_setPromptShown,
      State.console_setConsole, Console.readable_prompted, Console.nextWord_prompted, h, if_true]
    rfl

/-! ### PUTS and PUTSP (R128, R130) -/

theorem afterWalk_next {o : Option State} {t : State} :
    afterWalk o = .next t ↔ ∃ u, o = some u ∧ t = u.conFlush := by
  cases o <;> simp [afterWalk, eq_comm]

theorem afterWalk_fault {o : Option State} : afterWalk o = .fault .endlessString ↔ o = none := by
  cases o <;> simp [afterWalk]

/-- A walk that ends, with any fuel, is the one the service makes. -/
theorem State.printString_of_walk {s t : State} {emit : Word → List Byte} {k : Nat}
    (h : State.walkString emit k (s.reg .r0) s = some t) : s.printString emit = .next t.conFlush :=
  afterWalk_next.mpr ⟨t, State.walkString_walkFuel h, rfl⟩

/-- The walk and its flush change no register, PC, flag or run state, no cell but the ports, and keep memory canonical. -/
theorem State.printString_frame {s t : State} {emit : Word → List Byte} (h : s.printString emit = .next t) :
    t.regs = s.regs ∧ t.pc = s.pc ∧ t.cond = s.cond ∧ t.run = s.run ∧ t.promptShown = s.promptShown ∧
      (∀ x, x ≠ Config.kbsr → x ≠ Config.kbdr → t.cell x = s.cell x) ∧ (s.mem.wf → t.mem.wf) := by
  obtain ⟨u, hu, rfl⟩ := afterWalk_next.mp h
  obtain ⟨h1, h2, h3, h4, h5, h6⟩ := State.walkString_frame hu
  exact ⟨h1, h2, h3, h4, h5, h6, fun hw => (State.wf_walkString hw hu :)⟩

theorem State.conWrite_setReg (bs : List Byte) (r : Reg) (v : Word) :
    (s.setReg r v).conWrite bs = (s.conWrite bs).setReg r v := rfl

theorem State.pollKeyboard_setReg (r : Reg) (v : Word) :
    (s.setReg r v).pollKeyboard = s.pollKeyboard.setReg r v := by
  unfold State.pollKeyboard
  rw [State.console_setReg]
  split <;> rfl

/-- The walk starts at the address it is given and never reads a register. -/
theorem State.walkString_setReg {emit : Word → List Byte} (k : Nat) (p : Word) (r : Reg) (v : Word) :
    State.walkString emit k p (s.setReg r v) = (State.walkString emit k p s).map (·.setReg r v) := by
  have hread : ∀ (u : State) (a : Word),
      (u.setReg r v).memRead a = ((u.memRead a).1, (u.memRead a).2.setReg r v) := fun u a => by
    by_cases ha : a = Config.kbsr
    · subst ha
      rw [State.memRead_kbsr, State.memRead_kbsr, State.console_setReg, State.pollKeyboard_setReg]
    · rw [State.memRead_of_ne _ ha, State.memRead_of_ne _ ha, State.cell_setReg]
  induction k generalizing p s with
  | zero => simp [State.walkString]
  | succ k ih =>
    rw [State.walkString, State.walkString, hread]
    split
    · simp
    · rw [← ih, State.conWrite_setReg]

end Sys2Proof.Machine
end

