-- ==== Sys2Proof/Tests/Slice0.lean ====
section
/-!
SUPPORT. Tests: the smoke test of WellFormed, the decoder on words written out from the spec's formats (R62) and test
vectors (95_test_vectors.md, "V" and "S" numbers), one step of the machine for each instruction with the vectors' results,
and, for each statement with hypotheses, a state and operands that meet them (the names with `witness`).
-/

namespace Sys2Proof.Tests

open Sys2Proof Sys2Proof.Machine

/-! ### WellFormed: the ill-formed terms -/

theorem test_wellFormed_refuses_getc : (Instr.trap 0x20#8).wellFormed = false := by decide
theorem test_wellFormed_refuses_out : (Instr.trap 0x21#8).wellFormed = false := by decide
theorem test_wellFormed_refuses_puts : (Instr.trap 0x22#8).wellFormed = false := by decide
theorem test_wellFormed_refuses_in : (Instr.trap 0x23#8).wellFormed = false := by decide
theorem test_wellFormed_refuses_putsp : (Instr.trap 0x24#8).wellFormed = false := by decide
theorem test_wellFormed_refuses_halt : (Instr.trap 0x25#8).wellFormed = false := by decide

/-! ### Decode: words written out field by field -/

theorem test_decode_addReg : decode 0b0001_010_000_0_00_001#16 = .addReg .r2 .r0 .r1 := by decide
theorem test_decode_addImm : decode 0b0001_011_011_1_10000#16 = .addImm .r3 .r3 0b10000#5 := by decide
theorem test_decode_andReg : decode 0b0101_011_001_0_00_010#16 = .andReg .r3 .r1 .r2 := by decide
theorem test_decode_andImm : decode 0b0101_101_110_1_01111#16 = .andImm .r5 .r6 0b01111#5 := by decide
theorem test_decode_not : decode 0b1001_100_101_111111#16 = .not .r4 .r5 := by decide
theorem test_decode_brn : decode 0b0000_1_0_0_100000000#16 = .br true false false 0b100000000#9 := by decide
theorem test_decode_brp : decode 0b0000_0_0_1_011111111#16 = .br false false true 0b011111111#9 := by decide
theorem test_decode_jmp : decode 0b1100_000_011_000000#16 = .jmp .r3 := by decide
theorem test_decode_jsr : decode 0b0100_1_10000000000#16 = .jsr 0b10000000000#11 := by decide
theorem test_decode_jsrr : decode 0b0100_0_00_010_000000#16 = .jsrr .r2 := by decide
theorem test_decode_ld : decode 0b0010_010_100000000#16 = .ld .r2 0b100000000#9 := by decide
theorem test_decode_ldi : decode 0b1010_000_000001001#16 = .ldi .r0 0b000001001#9 := by decide
theorem test_decode_ldr : decode 0b0110_100_110_011111#16 = .ldr .r4 .r6 0b011111#6 := by decide
theorem test_decode_lea : decode 0b1110_101_011111111#16 = .lea .r5 0b011111111#9 := by decide
theorem test_decode_st : decode 0b0011_011_111111110#16 = .st .r3 0b111111110#9 := by decide
theorem test_decode_sti : decode 0b1011_001_000000100#16 = .sti .r1 0b000000100#9 := by decide
theorem test_decode_str : decode 0b0111_000_110_100000#16 = .str .r0 .r6 0b100000#6 := by decide
theorem test_decode_trap : decode 0b1111_0000_00100110#16 = .trap 0b00100110#8 := by decide
theorem test_decode_trapGetc : decode 0b1111_0000_00100000#16 = .trapGetc := by decide
theorem test_decode_trapOut : decode 0b1111_1010_00100001#16 = .trapOut := by decide
theorem test_decode_trapPuts : decode 0b1111_0000_00100010#16 = .trapPuts := by decide
theorem test_decode_trapIn : decode 0b1111_0000_00100011#16 = .trapIn := by decide
theorem test_decode_trapPutsp : decode 0b1111_0000_00100100#16 = .trapPutsp := by decide
theorem test_decode_trapHalt : decode 0b1111_0000_00100101#16 = .trapHalt := by decide
theorem test_decode_rti : decode 0b1000_111111111111#16 = .rti 0b111111111111#12 := by decide
theorem test_decode_res : decode 0b1101_101010111100#16 = .res 0b101010111100#12 := by decide

/-! ### The machine of the tests -/

/-- A running core at `a`: registers 0 but those given, with the given memory, flag and console. -/
def machine (a : Word) (mem : Memory) (regs : List (Reg × Word)) (c : Cond) (con : Console) : State :=
  { regs.foldl (fun s x => s.setReg x.1 x.2) (State.resetWith (fun _ => 0) c con) with
    pc := a, run := .running, mem := mem }

/-- A keyboard at which the characters `cs` wait and every poll finds them. -/
def typed (cs : List Byte) : Console :=
  { input := cs, ended := false, polls := [], pollRest := true, output := [] }

/-- A keyboard whose input has ended. -/
def closed : Console :=
  { input := [], ended := true, polls := [], pollRest := true, output := [] }

/-- What can be seen of the next state, if there is one. -/
def seen {α : Type} (f : State → α) (s : State) : Option α :=
  match step s with
  | .next t => some (f t)
  | .fault _ => none
  | .refused _ => none

/-! ### Operate (V2) -/

theorem test_addReg_to_the_sign_bit :
    seen (fun t => (t.reg .r2, t.cond, t.pc))
      (machine 0x3000 [(0x3000, 0x1401)] [(.r0, 0x7FFF), (.r1, 0x0001)] .Z Console.silent) =
      some (0x8000, .N, 0x3001) := by decide

theorem test_addReg_source_is_destination :
    seen (fun t => (t.reg .r1, t.cond)) (machine 0x3000 [(0x3000, 0x1241)] [(.r1, 0xC001)] .Z Console.silent) =
      some (0x8002, .N) := by decide

theorem test_addImm_negative :
    seen (fun t => (t.reg .r3, t.cond)) (machine 0x3000 [(0x3000, 0x16F0)] [(.r3, 0x000F)] .Z Console.silent) =
      some (0xFFFF, .N) := by decide

theorem test_addImm_wraps_at_the_top_of_memory :
    seen (fun t => (t.reg .r0, t.cond, t.pc))
      (machine 0xFFFF [(0xFFFF, 0x1021)] [(.r0, 0xFFFF)] .P Console.silent) = some (0x0000, .Z, 0x0000) := by decide

theorem test_andReg :
    seen (fun t => (t.reg .r3, t.cond))
      (machine 0x3000 [(0x3000, 0x5642)] [(.r1, 0xF0F0), (.r2, 0x3C3C)] .Z Console.silent) =
      some (0x3030, .P) := by decide

theorem test_andReg_zero :
    seen (fun t => (t.reg .r3, t.cond))
      (machine 0x3000 [(0x3000, 0x5642)] [(.r1, 0x00FF), (.r2, 0xFF00)] .P Console.silent) =
      some (0x0000, .Z) := by decide

theorem test_andImm_negative :
    seen (fun t => (t.reg .r5, t.cond)) (machine 0x3000 [(0x3000, 0x5BB0)] [(.r6, 0xABCD)] .Z Console.silent) =
      some (0xABC0, .N) := by decide

theorem test_andImm_positive :
    seen (fun t => (t.reg .r5, t.cond)) (machine 0x3000 [(0x3000, 0x5BAF)] [(.r6, 0xABCD)] .Z Console.silent) =
      some (0x000D, .P) := by decide

theorem test_not :
    seen (fun t => (t.reg .r4, t.cond)) (machine 0x3000 [(0x3000, 0x997F)] [(.r5, 0x00FF)] .Z Console.silent) =
      some (0xFF00, .N) := by decide

theorem test_not_with_ignored_bits_clear :
    seen (fun t => (t.reg .r1, t.cond)) (machine 0x3000 [(0x3000, 0x9280)] [(.r2, 0x7FFF)] .Z Console.silent) =
      some (0x8000, .N) := by decide

/-! ### Control (V3) -/

theorem test_br_not_taken :
    seen (·.pc) (machine 0x3000 [(0x3000, 0x0403)] [] .P Console.silent) = some 0x3001 := by decide

theorem test_br_taken_wraps :
    seen (·.pc) (machine 0x0010 [(0x0010, 0x0900)] [] .N Console.silent) = some 0xFF11 := by decide

theorem test_jmp :
    seen (·.pc) (machine 0x3000 [(0x3000, 0xCEFF)] [(.r3, 0x4000)] .Z Console.silent) = some 0x4000 := by decide

theorem test_ret :
    seen (fun t => (t.pc, t.reg .r7)) (machine 0x3009 [(0x3009, 0xC1C0)] [(.r7, 0x3003)] .Z Console.silent) =
      some (0x3003, 0x3003) := by decide

theorem test_jsr_backward :
    seen (fun t => (t.pc, t.reg .r7)) (machine 0x3000 [(0x3000, 0x4C00)] [] .Z Console.silent) =
      some (0x2C01, 0x3001) := by decide

theorem test_jsr_forward :
    seen (fun t => (t.pc, t.reg .r7)) (machine 0x3000 [(0x3000, 0x4BFF)] [] .Z Console.silent) =
      some (0x3400, 0x3001) := by decide

theorem test_jsrr :
    seen (fun t => (t.pc, t.reg .r7)) (machine 0x3000 [(0x3000, 0x46BF)] [(.r2, 0x5000)] .Z Console.silent) =
      some (0x5000, 0x3001) := by decide

theorem test_jsrr_r7 :
    seen (fun t => (t.pc, t.reg .r7)) (machine 0x3000 [(0x3000, 0x41C0)] [(.r7, 0x5000)] .Z Console.silent) =
      some (0x3001, 0x3001) := by decide

/-! ### Loads and LEA (V4, S7) -/

theorem test_ld :
    seen (fun t => (t.reg .r0, t.cond))
      (machine 0x3000 [(0x3000, 0x2008), (0x3009, 0xFFFE)] [] .Z Console.silent) = some (0xFFFE, .N) := by decide

theorem test_ld_its_own_word :
    seen (fun t => (t.reg .r0, t.cond)) (machine 0x3000 [(0x3000, 0x21FF)] [] .Z Console.silent) =
      some (0x21FF, .P) := by decide

theorem test_ldi :
    seen (fun t => (t.reg .r0, t.cond, t.pc))
      (machine 0x3000 [(0x3000, 0xA009), (0x300A, 0x4000), (0x4000, 0x1234)] [] .Z Console.silent) =
      some (0x1234, .P, 0x3001) := by decide

theorem test_ldi_flags_from_the_data :
    seen (fun t => (t.reg .r0, t.cond))
      (machine 0x3000 [(0x3000, 0xA008), (0x3009, 0x4000), (0x4000, 0x8000)] [] .Z Console.silent) =
      some (0x8000, .N) := by decide

theorem test_ldr_wraps :
    seen (fun t => (t.reg .r4, t.cond))
      (machine 0x3000 [(0x000F, 0x0042), (0x3000, 0x699F)] [(.r6, 0xFFF0)] .Z Console.silent) =
      some (0x0042, .P) := by decide

theorem test_ldr_base_is_destination :
    seen (fun t => (t.reg .r1, t.cond))
      (machine 0x3000 [(0x3000, 0x6240), (0x4000, 0xBEEF)] [(.r1, 0x4000)] .Z Console.silent) =
      some (0xBEEF, .N) := by decide

theorem test_lea_wraps :
    seen (fun t => (t.reg .r0, t.cond)) (machine 0xFFFD [(0xFFFD, 0xE002)] [] .P Console.silent) =
      some (0x0000, .Z) := by decide

/-- V6: LEA of the status port's own address reads no memory. -/
theorem test_lea_does_not_poll :
    seen (fun t => (t.reg .r0, t.cond, t.console.input, t.cell 0xFE00))
      (machine 0xFD00 [(0xFD00, 0xE0FF), (0xFE00, 0x1234)] [] .Z (typed [0x41])) =
      some (0xFE00, .N, [0x41], 0x1234) := by decide

/-! ### Stores (V5) -/

theorem test_st :
    seen (fun t => (t.cell 0x3004, t.cond, t.pc))
      (machine 0x3005 [(0x3005, 0x37FE)] [(.r3, 0xBEEF)] .Z Console.silent) = some (0xBEEF, .Z, 0x3006) := by decide

theorem test_st_over_itself :
    seen (fun t => (t.cell 0x3000, t.pc)) (machine 0x3000 [(0x3000, 0x31FF)] [] .P Console.silent) =
      some (0x0000, 0x3001) := by decide

theorem test_sti :
    seen (fun t => (t.cell 0x4000, t.cell 0x3005))
      (machine 0x3000 [(0x3000, 0xB204), (0x3005, 0x4000)] [(.r1, 0x0041)] .Z Console.silent) =
      some (0x0041, 0x4000) := by decide

theorem test_sti_replaces_its_pointer :
    seen (·.cell 0x3005) (machine 0x3000 [(0x3000, 0xB204), (0x3005, 0x3005)] [(.r1, 0x0041)] .Z Console.silent) =
      some 0x0041 := by decide

theorem test_str_negative_offset :
    seen (·.cell 0x4000) (machine 0x3000 [(0x3000, 0x71A0)] [(.r6, 0x4020), (.r0, 0x1234)] .Z Console.silent) =
      some 0x1234 := by decide

theorem test_str_wraps :
    seen (·.cell 0x0000) (machine 0x3000 [(0x3000, 0x7041)] [(.r1, 0xFFFF), (.r0, 0x0009)] .Z Console.silent) =
      some 0x0009 := by decide

/-! ### The keyboard ports (V6) -/

theorem test_poll_without_input :
    seen (fun t => (t.cell 0xFE00, t.cell 0xFE02, t.reg .r0, t.cond))
      (machine 0x3000 [(0x3000, 0x6040), (0xFE00, 0x1234), (0xFE02, 0x5555)] [(.r1, 0xFE00)] .P (typed [])) =
      some (0x0000, 0x5555, 0x0000, .Z) := by decide

theorem test_poll_with_input :
    seen (fun t => (t.cell 0xFE00, t.cell 0xFE02, t.reg .r0, t.cond, t.console.input))
      (machine 0x3000 [(0x3000, 0x6040)] [(.r1, 0xFE00)] .P (typed [0x61, 0x62])) =
      some (0x8000, 0x0061, 0x8000, .N, [0x62]) := by decide

theorem test_data_port_does_not_poll :
    seen (fun t => (t.reg .r0, t.cond, t.console.input, t.cell 0xFE00))
      (machine 0x3000 [(0x3000, 0x6080), (0xFE00, 0x8000), (0xFE02, 0x0062)] [(.r2, 0xFE02)] .N (typed [0x63])) =
      some (0x0062, .P, [0x63], 0x8000) := by decide

theorem test_store_to_the_status_port_does_not_poll :
    seen (fun t => (t.cell 0xFE00, t.console.input))
      (machine 0x3000 [(0x3000, 0x7040)] [(.r0, 0x7777), (.r1, 0xFE00)] .N (typed [0x63])) =
      some (0x7777, [0x63]) := by decide

theorem test_pointer_to_the_status_port_polls :
    seen (fun t => (t.reg .r0, t.cond, t.cell 0xFE02))
      (machine 0x3000 [(0x3000, 0xA004), (0x3005, 0xFE00)] [] .P (typed [0x41])) =
      some (0x8000, .N, 0x0041) := by decide

theorem test_fetch_from_the_status_port_faults :
    seen (fun t => (t.run, t.pc, t.cell 0xFE02)) (machine 0xFE00 [] [] .P (typed [0x41])) =
      some (.faulted 0xFE00 0x8000, 0xFE01, 0x0041) := by decide

theorem test_fetch_from_the_status_port_is_a_nop :
    seen (fun t => (t.run, t.pc, t.cell 0xFE00)) (machine 0xFE00 [] [] .P (typed [])) =
      some (.running, 0xFE01, 0x0000) := by decide

/-! ### TRAP (V7) -/

theorem test_getc :
    seen (fun t => (t.reg .r0, t.cond, t.reg .r7, t.pc, t.console.input))
      (machine 0x3000 [(0x3000, 0xF020)] [(.r0, 0xFFFF), (.r7, 0x1111)] .N (typed [0x61])) =
      some (0x0061, .N, 0x1111, 0x3001, []) := by decide

theorem test_getc_at_end_of_input :
    seen (fun t => (t.reg .r0, t.cond)) (machine 0x3000 [(0x3000, 0xF020)] [] .N closed) =
      some (Config.eofSentinel, .N) := rfl

theorem test_out :
    seen (fun t => (t.console.output, t.reg .r0, t.pc))
      (machine 0x3000 [(0x3000, 0xF021)] [(.r0, 0x1241)] .N Console.silent) =
      some ([.byte 0x41, .flush], 0x1241, 0x3001) := by decide

theorem test_in :
    seen (fun t => (t.reg .r0, t.cond, t.console.output))
      (machine 0x3000 [(0x3000, 0xF023)] [] .N (typed [0x7A])) =
      some (0x007A, .N, Config.inPrompt.map ConsoleOut.byte ++ [.flush] ++ [.byte 0x7A] ++ [.flush]) := rfl

theorem test_halt :
    seen (fun t => (t.run, t.pc, t.console.output)) (machine 0x3003 [(0x3003, 0xF025)] [] .N Console.silent) =
      some (.halted, 0x3004, Config.haltMsg.map ConsoleOut.byte ++ [.flush]) := rfl

theorem test_trap_below :
    seen (fun t => (t.run, t.pc, t.console.output)) (machine 0x3000 [(0x3000, 0xF01F)] [] .N Console.silent) =
      some (.running, 0x3001, []) := by decide

theorem test_trap_above :
    seen (fun t => (t.run, t.pc, t.console.output)) (machine 0x3000 [(0x3000, 0xF026)] [] .N Console.silent) =
      some (.running, 0x3001, []) := by decide

theorem test_puts_wraps_and_writes_low_bytes :
    seen (fun t => (t.console.output, t.reg .r0, t.pc))
      (machine 0x3000 [(0x0000, 0x0142), (0x0001, 0x0000), (0x3000, 0xF022), (0xFFFF, 0x0041)] [(.r0, 0xFFFF)] .N
        Console.silent) = some ([.byte 0x41, .byte 0x42, .flush], 0xFFFF, 0x3001) := by rfl

theorem test_puts_empty :
    seen (·.console.output) (machine 0x3000 [(0x3000, 0xF022), (0x4000, 0x0000)] [(.r0, 0x4000)] .N Console.silent) =
      some [.flush] := by rfl

theorem test_putsp_low_byte_first :
    seen (·.console.output)
      (machine 0x3000 [(0x3000, 0xF024), (0x4000, 0x6548), (0x4001, 0x006C), (0x4002, 0x0000)] [(.r0, 0x4000)] .N
        Console.silent) = some [.byte 0x48, .byte 0x65, .byte 0x6C, .flush] := by rfl

theorem test_putsp_zero_low_byte :
    seen (·.console.output)
      (machine 0x3000 [(0x3000, 0xF024), (0x4000, 0x4100), (0x4001, 0x0000)] [(.r0, 0x4000)] .N Console.silent) =
      some [.byte 0x00, .byte 0x41, .flush] := by rfl

/-! ### The fatal opcodes (V8) -/

theorem test_rti :
    seen (fun t => (t.run, t.pc, t.cond)) (machine 0x3000 [(0x3000, 0x8FFF)] [] .P Console.silent) =
      some (.faulted 0x3000 0x8FFF, 0x3001, .P) := by decide

theorem test_res_at_the_top_of_memory :
    seen (fun t => (t.run, t.pc, t.cond)) (machine 0xFFFF [(0xFFFF, 0xDABC)] [] .P Console.silent) =
      some (.faulted 0xFFFF 0xDABC, 0x0000, .P) := by decide

/-! ### Image load (V9, S3) -/

/-- What can be seen of the state after a load. -/
def loaded {α : Type} (f : State → α) (s : State) (bytes : List Byte) : Option α :=
  match s.loadImage bytes with
  | .ok t => some (f t)
  | .error _ => none

theorem test_load_is_big_endian :
    loaded (fun t => (t.cell 0x3000, t.cell 0x3001, t.pc)) State.reset [0x30, 0x00, 0x12, 0x34, 0xAB, 0xCD] =
      some (0x1234, 0xABCD, 0x3000) := by decide

theorem test_load_drops_what_is_past_the_top :
    loaded (·.mem) State.reset [0xFF, 0xFE, 0x00, 0x01, 0x00, 0x02, 0x00, 0x03] =
      some [(0xFFFE, 0x0001), (0xFFFF, 0x0002)] := by decide

theorem test_load_origin_only_and_odd_byte : loaded (·.mem) State.reset [0x30, 0x00, 0x12] = some [] := by decide

theorem test_load_truncated : State.reset.loadImage [0x30] = .error .truncated := by rfl

/-! ### Sign extension (V1) -/

theorem test_sext :
    sext16 0x0F#5 = 0x000F ∧ sext16 0x10#5 = 0xFFF0 ∧ sext16 0x1F#6 = 0x001F ∧ sext16 0x20#6 = 0xFFE0 ∧
      sext16 0x0FF#9 = 0x00FF ∧ sext16 0x100#9 = 0xFF00 ∧ sext16 0x3FF#11 = 0x03FF ∧ sext16 0x400#11 = 0xFC00 := by
  decide

/-! ### Witnesses: encoding -/

theorem test_witness_DecodeOfEncode :
    (Instr.trap 0x1F#8).wellFormed = true ∧ (Instr.trap 0x26#8).wellFormed = true ∧
      (Instr.addImm .r7 .r7 0x1F#5).wellFormed = true := by decide

/-- Two words of each form that has ignored bits (V2, V3, V7). -/
theorem test_witness_IgnoredBits :
    0x165A#16 &&& significantBits (decode 0x165A#16) = 0x1642#16 &&& significantBits (decode 0x165A#16) ∧
      0x9280#16 &&& significantBits (decode 0x9280#16) = 0x92BF#16 &&& significantBits (decode 0x9280#16) ∧
      0xC0C0#16 &&& significantBits (decode 0xC0C0#16) = 0xCEFF#16 &&& significantBits (decode 0xC0C0#16) ∧
      0x4080#16 &&& significantBits (decode 0x4080#16) = 0x46BF#16 &&& significantBits (decode 0x4080#16) ∧
      0xF021#16 &&& significantBits (decode 0xF021#16) = 0xFA21#16 &&& significantBits (decode 0xF021#16) := by decide

/-- The boundaries of the two ranges (V8). -/
theorem test_witness_IllegalWords :
    illegalWord 0x8000 ∧ illegalWord 0x8FFF ∧ illegalWord 0xD000 ∧ illegalWord 0xDFFF ∧ ¬ illegalWord 0x7FFF ∧
      ¬ illegalWord 0x9000 ∧ ¬ illegalWord 0xCFFF ∧ ¬ illegalWord 0xE000 ∧
      decode 0x8FFF#16 = .rti 0xFFF ∧ decode 0xDABC#16 = .res 0xABC := by
  unfold illegalWord; decide

/-- Also for `OtherVectorsDoNothing`. -/
theorem test_witness_NoOperationVectors :
    ((0x00#8).toNat < 0x20 ∨ 0x25 < (0x00#8).toNat) ∧ ((0x1F#8).toNat < 0x20 ∨ 0x25 < (0x1F#8).toNat) ∧
      ((0x26#8).toNat < 0x20 ∨ 0x25 < (0x26#8).toNat) ∧ ((0xFF#8).toNat < 0x20 ∨ 0x25 < (0xFF#8).toNat) := by decide

/-! ### Witnesses: operate, loads, stores -/

/-- S4: R2 = 0xFFF5 is the immediate -11. -/
theorem test_witness_FormsAgree :
    (machine 0x3001 [] [(.r1, 0x0123), (.r2, 0xFFF5)] .Z Console.silent).reg .r2 = sext16 0x15#5 := by decide

/-- The four widths. -/
theorem test_witness_SignExtension :
    (5 = 5 ∨ 5 = 6 ∨ 5 = 9 ∨ 5 = 11) ∧ (11 = 5 ∨ 11 = 6 ∨ 11 = 9 ∨ 11 = 11) := by decide

/-- LD, ST: on either side of the status port, where the clause applies, and at it, where it does not. -/
theorem test_witness_PcRelative :
    (machine 0xFE00 [] [] .Z Console.silent).pc + sext16 0x1FF#9 ≠ Config.kbsr ∧
      (machine 0xFE00 [] [] .Z Console.silent).pc + sext16 0x001#9 ≠ Config.kbsr ∧
      (machine 0xFE00 [] [] .Z Console.silent).pc + sext16 0x000#9 = Config.kbsr := by decide

/-- LDI, STI: neither the pointer's address nor the pointer is the status port. -/
theorem test_witness_Indirect :
    (machine 0x3001 [(0x300A, 0x4000)] [] .Z Console.silent).pc + sext16 0x009#9 ≠ Config.kbsr ∧
      (machine 0x3001 [(0x300A, 0x4000)] [] .Z Console.silent).cell
        ((machine 0x3001 [(0x300A, 0x4000)] [] .Z Console.silent).pc + sext16 0x009#9) ≠ Config.kbsr := by decide

theorem test_witness_BasePlusOffset :
    (machine 0x3001 [] [(.r2, 0xFE00)] .Z Console.silent).reg .r2 + sext16 0x3F#6 ≠ Config.kbsr ∧
      (machine 0x3001 [] [(.r2, 0xFE00)] .Z Console.silent).reg .r2 + sext16 0x01#6 ≠ Config.kbsr := by decide

/-- V5: `ST R0,#0` at 0x3001 stores to 0x3002. -/
theorem test_witness_StoreIsSeen :
    let s := machine 0x3001 [(0x3001, 0x3000)] [(.r0, 0xD000)] .Z Console.silent
    s.run = .running ∧ s.pc ≠ 0xFE00 ∧ s.cell s.pc = encode (.st .r0 0#9) ∧ s.pc + 1 ≠ 0xFE00 ∧
      s.pc + 1 + sext16 0#9 = s.pc + 1 := by decide

/-! ### Witnesses: ports and console -/

/-- Also for `PollAnswersAreFree`. -/
theorem test_witness_ReadPolls :
    (machine 0x3001 [] [] .Z (typed [0x61])).console.poll.1 = true ∧
      (machine 0x3001 [] [] .Z (typed [0x61])).conRead.isSome = true ∧
      (machine 0x3001 [] [] .Z closed).console.poll.1 = true ∧
      (machine 0x3001 [] [] .Z (typed [])).console.poll.1 = false ∧
      (0xFDFF : Word) ≠ 0xFE00 ∧ (0xFE01 : Word) ≠ 0xFE00 ∧ (0xFE01 : Word) ≠ 0xFE02 ∧ (0xFE02 : Word) ≠ 0xFE00 := by
  decide

/-- The three clauses exclude each other. -/
theorem test_witness_ConsoleReadDelivers :
    (machine 0x3001 [] [] .Z (typed [0x61, 0x62])).console.input = 0x61 :: [0x62] ∧
      ((machine 0x3001 [] [] .Z closed).console.input = [] ∧ (machine 0x3001 [] [] .Z closed).console.ended = true) ∧
      ((machine 0x3001 [] [] .Z (typed [])).console.input = [] ∧
        (machine 0x3001 [] [] .Z (typed [])).console.ended = false) := by decide

/-- GETC and IN complete with a character and at the end of input. -/
theorem test_witness_GetcAndIn :
    ((machine 0x3001 [] [] .Z (typed [0x61])).console.input ≠ [] ∨
        (machine 0x3001 [] [] .Z (typed [0x61])).console.ended = true) ∧
      (machine 0x3001 [] [] .Z (typed [0x61])).console.input = 0x61 :: [] ∧
      ((machine 0x3001 [] [] .Z closed).console.input ≠ [] ∨ (machine 0x3001 [] [] .Z closed).console.ended = true) ∧
      (machine 0x3001 [] [] .Z closed).console.input = [] := by decide

/-- PUTS and PUTSP: a string that wraps past the top of memory, and the empty one (V7). -/
theorem test_witness_StringUpToZero :
    (let s := machine 0x3001 [(0x0000, 0x0142), (0x0001, 0x0000), (0xFFFF, 0x0041)] [(.r0, 0xFFFF)] .Z Console.silent;
      WordsAt s (s.reg .r0) [0x0041, 0x0142] ∧
        s.reg .r0 + BitVec.ofNat 16 [0x0041#16, 0x0142#16].length ≠ 0xFE00 ∧
        s.cell (s.reg .r0 + BitVec.ofNat 16 [0x0041#16, 0x0142#16].length) = 0) ∧
      (let s := machine 0x3001 [(0x4000, 0x0000)] [(.r0, 0x4000)] .Z Console.silent;
      WordsAt s (s.reg .r0) [] ∧ s.reg .r0 + BitVec.ofNat 16 ([] : List Word).length ≠ 0xFE00 ∧
        s.cell (s.reg .r0 + BitVec.ofNat 16 ([] : List Word).length) = 0) := by
  unfold WordsAt; decide

/-- PUTS and PUTSP: a string that ends at the status port with nothing pending, and one that starts there. -/
theorem test_witness_StringUpToThePort :
    (let s := machine 0x3001 [(0xFDFF, 0x6548)] [(.r0, 0xFDFF)] .Z (typed []);
      WordsAt s (s.reg .r0) [0x6548] ∧ s.reg .r0 + BitVec.ofNat 16 [0x6548#16].length = 0xFE00 ∧
        s.console.poll.1 = false) ∧
      (let s := machine 0x3001 [] [(.r0, 0xFE00)] .Z (typed []);
      WordsAt s (s.reg .r0) [] ∧ s.reg .r0 + BitVec.ofNat 16 ([] : List Word).length = 0xFE00 ∧
        s.console.poll.1 = false) := by
  unfold WordsAt; decide

/-- PUTS and PUTSP: a string that runs into the status port with a character pending, and one that starts there at the end
of input with a poll that answers true. -/
theorem test_witness_StringThroughThePort :
    (let s := machine 0x3001 [(0xFDFF, 0x6548)] [(.r0, 0xFDFF)] .Z (typed [0x61]);
      WordsAt s (s.reg .r0) [0x6548] ∧ s.reg .r0 + BitVec.ofNat 16 [0x6548#16].length = 0xFE00 ∧
        s.console.poll.1 = true) ∧
      (let s := machine 0x3001 [] [(.r0, 0xFE00)] .Z closed;
      WordsAt s (s.reg .r0) [] ∧ s.reg .r0 + BitVec.ofNat 16 ([] : List Word).length = 0xFE00 ∧
        s.console.poll.1 = true) := by
  unfold WordsAt; decide

theorem test_witness_BlockedGetc :
    let s := machine 0x3000 [(0x3000, 0xF020)] [] .Z (typed [])
    s.run = .running ∧ s.pc ≠ 0xFE00 ∧ decode (s.cell s.pc) = .trapGetc ∧ s.console.input = [] ∧
      s.console.ended = false := by decide

theorem test_witness_BlockedIn :
    let s := machine 0x3000 [(0x3000, 0xF023)] [] .Z (typed [])
    s.run = .running ∧ s.pc ≠ 0xFE00 ∧ decode (s.cell s.pc) = .trapIn ∧ s.console.input = [] ∧
      s.console.ended = false ∧ s.promptShown = false := by decide

/-! ### Witnesses: step and run -/

/-- Also for `StepRunsTheDecodedInstruction`, at an address beside the status port. -/
theorem test_witness_RunningCore :
    let s := machine 0xFDFF [] [] .Z (typed [0x61])
    s.run = .running ∧ s.console.ended = false ∧ s.pc ≠ 0xFE00 := by decide

/-- In memory, and at the status port where the poll makes the word (V6, V8). -/
theorem test_witness_IllegalWordFetched :
    (let s := machine 0x3000 [(0x3000, 0x8000)] [] .Z Console.silent;
      s.run = .running ∧ illegalWord s.fetch.1 ∧ s.pc ≠ 0xFE00) ∧
      (let s := machine 0xFE00 [] [] .Z (typed [0x41]);
      s.run = .running ∧ illegalWord s.fetch.1) := by
  unfold illegalWord; decide

theorem test_witness_EndedCore :
    ((machine 0x3000 [] [] .Z Console.silent).setRun .halted).run = .halted ∧
      ((machine 0x3000 [] [] .Z Console.silent).setRun (.faulted 0x3000 0x8000)).run = .faulted 0x3000 0x8000 := by
  decide

theorem test_witness_Start : State.reset.run = .ready := by decide

/-- A file that is too short; and three words at origin 0xFFFE (V9), of which the last is dropped, with the cells on either
side of the two that are written. -/
theorem test_witness_ImageLoad :
    State.reset.run = .ready ∧ ([0x30] : List Byte).length < 2 ∧ 256 * (0xFF#8).toNat + (0xFE#8).toNat = 0xFFFE ∧
      1 < min (([0x00, 0x01, 0x00, 0x02, 0x00, 0x03] : List Byte).length / 2) (0x10000 - 0xFFFE) ∧
      (0xFFFD#16).toNat < 0xFFFE ∧ (0x0000#16).toNat < 0xFFFE := by decide

/-- A held IN has the invariant and a step; so has the machine after reset. -/
theorem test_witness_Invariant :
    (let s := (machine 0x3000 [(0x3000, 0xF023)] [] .Z (typed [])).setPromptShown true;
      s.Inv ∧ ∃ t, step s = .next t) ∧ (State.reset.Inv ∧ ∃ t, step State.reset = .next t) := by
  refine ⟨⟨⟨by decide, fun _ => by decide⟩, _, rfl⟩, ⟨by decide, fun h => by cases h⟩, _, rfl⟩

theorem test_witness_EnvironmentLoad :
    State.reset.Inv ∧ ∃ t, State.reset.loadImage [0x30, 0x00, 0x12, 0x34] = .ok t :=
  ⟨⟨by decide, fun h => by cases h⟩, _, rfl⟩

/-- An instruction that writes a register and the flag, and one that writes neither; the load leaves the flag. -/
theorem test_witness_CondAndRegisters :
    (∃ t, exec (.addImm .r1 .r2 1) State.reset = .next t) ∧ flagReg (.addImm .r1 .r2 1) = some .r1 ∧
      (Instr.addImm .r1 .r2 1).wellFormed = true ∧ Reg.r2 ∉ writtenRegs (.addImm .r1 .r2 1) ∧
      (∃ t, exec (.jsr 1) State.reset = .next t) ∧ flagReg (.jsr 1) = none ∧
      (Instr.jsr 1).wellFormed = true ∧ Reg.r6 ∉ writtenRegs (.jsr 1) ∧
      ∃ t, State.reset.loadImage [0x30, 0x00] = .ok t :=
  ⟨⟨_, rfl⟩, rfl, rfl, by decide, ⟨_, rfl⟩, rfl, rfl, by decide, _, rfl⟩

/-- A read that blocks, the same read when it does not, and an instruction that is no such read. -/
theorem test_witness_PcAtTheEnd :
    (let s := machine 0x3001 [] [] .Z (typed []);
      blockedRead .trapGetc s ∧ (∃ t, exec .trapGetc s = .next t) ∧ ¬ blockedRead (.jmp .r3) s ∧
        ∃ t, exec (.jmp .r3) s = .next t) ∧
      (let s := machine 0x3001 [] [] .Z (typed [0x61]);
      ¬ blockedRead .trapGetc s ∧ ∃ t, exec .trapGetc s = .next t) := by
  refine ⟨⟨by unfold blockedRead; decide, ⟨_, rfl⟩, by unfold blockedRead; decide, _, rfl⟩,
    by unfold blockedRead; decide, _, rfl⟩

/-- A store and a cell beside it; a load and a cell that is no port; an instruction that reads nothing and a port. -/
theorem test_witness_MemoryWrites :
    let s := machine 0x3001 [] [(.r6, 0x4000)] .Z Console.silent
    (storeAddress (.str .r0 .r6 0) s ≠ some 0x4001 ∧ readsMemory (.str .r0 .r6 0) = false ∧
        ∃ t, exec (.str .r0 .r6 0) s = .next t) ∧
      (storeAddress (.ld .r0 0) s ≠ some 0xFE01 ∧ ((0xFE01 : Word) ≠ 0xFE00 ∧ (0xFE01 : Word) ≠ 0xFE02) ∧
        ∃ t, exec (.ld .r0 0) s = .next t) ∧
      (storeAddress (.lea .r0 0) s ≠ some 0xFE00 ∧ readsMemory (.lea .r0 0) = false ∧
        ∃ t, exec (.lea .r0 0) s = .next t) :=
  ⟨⟨by decide, rfl, _, rfl⟩, ⟨by decide, by decide, _, rfl⟩, by decide, rfl, _, rfl⟩

/-- HALT, a fatal opcode, and an instruction that leaves the run state. -/
theorem test_witness_RunStateWrites :
    let s := machine 0x3001 [] [] .Z Console.silent
    (Instr.trapHalt.wellFormed = true ∧ ∃ t, exec .trapHalt s = .next t) ∧
      ((Instr.res 0xABC).wellFormed = true ∧ ∃ t, exec (.res 0xABC) s = .next t) ∧
      ((Instr.not .r0 .r0).wellFormed = true ∧ ∃ t, exec (.not .r0 .r0) s = .next t) :=
  ⟨⟨rfl, _, rfl⟩, ⟨rfl, _, rfl⟩, rfl, _, rfl⟩

/-- BRnzp to itself (V3): a run that goes on for ever. -/
def spin : State := machine 0x3000 [(0x3000, 0x0FFF)] [] .Z Console.silent

theorem step_spin : step spin = .next spin := by
  have h : seen id spin = some spin := by decide
  unfold seen at h
  split at h
  · next t ht => rw [ht]; exact congrArg Host.Outcome.next (Option.some.inj h)
  · cases h
  · cases h

theorem run_spin (n : Nat) : Host.Core.run Sys2Proof.core n spin = .next spin := by
  induction n with
  | zero => rfl
  | succ n ih =>
    have h : Sys2Proof.core.step spin = .next spin := step_spin
    simp only [Host.Core.run, h]
    exact ih

/-- A run that never fetches an illegal word. -/
theorem test_witness_RunsFaultOnly :
    (∀ a ir, spin.run ≠ .faulted a ir) ∧
      ∀ n t, Host.Core.run Sys2Proof.core n spin = .next t → t.run = .running → ¬ illegalWord t.fetch.1 := by
  refine ⟨fun a ir h => (by cases h), fun n t ht _ => ?_⟩
  rw [run_spin n] at ht
  obtain rfl : spin = t := Host.Outcome.next.inj ht
  unfold illegalWord
  decide

/-! ### The one fault of an instruction can be reached -/

/-- The word 1 in `n` cells from `a` on. -/
def ones : Nat → Nat → Memory
  | 0, _ => []
  | n + 1, a => (a, 1) :: ones n (a + 1)

theorem lookup_ones (n a x : Nat) (h : a ≤ x) (hx : x < a + n) : (ones n a).lookup x = some 1 := by
  induction n generalizing a with
  | zero => omega
  | succ n ih =>
    simp only [ones, Memory.lookup]
    split
    · rfl
    · exact ih (a + 1) (by omega) (by omega)

/-- With no cell 0, the input ended and every poll true, PUTS walks for ever unless the word a read then delivers is 0. -/
theorem endless_of_no_zero (h : Config.eofSentinel ≠ 0) (m : Memory) (hm : ∀ x : Word, m.lookup x.toNat = some 1) :
    ∃ s : State, exec .trapPuts s = .fault .endlessString := by
  refine ⟨((machine 0x3001 m [] .Z closed).memWrite Config.kbsr Config.kbsrReady).memWrite
    Config.kbdr Config.eofSentinel, ?_⟩
  generalize hs : ((machine 0x3001 m [] .Z closed).memWrite Config.kbsr Config.kbsrReady).memWrite
    Config.kbdr Config.eofSentinel = s
  have hcells : ∀ x, s.cell x =
      if x = Config.kbdr then Config.eofSentinel else if x = Config.kbsr then Config.kbsrReady else 1 := fun x => by
    rw [← hs, State.cell_memWrite, State.cell_memWrite]
    have hc : (machine 0x3001 m [] .Z closed).cell x = 1 := by
      show (m.lookup x.toNat).getD _ = 1
      rw [hm]; rfl
    rw [hc]
  have hcon : s.console = closed := by rw [← hs]; rfl
  have hrest : s.atRest := by
    refine ⟨by rw [hcon]; rfl, by rw [hcon]; rfl, by rw [hcon]; rfl, by rw [hcon]; rfl, ?_, ?_⟩
    · rw [hcells, if_neg (by decide), if_pos rfl]
    · rw [hcells, if_pos rfl]
  have hnz : ∀ x, s.cell x ≠ 0 := fun x => by
    rw [hcells]
    split
    · exact h
    · split <;> decide
  have hnone : State.walkString putsBytes s.walkFuel (s.reg .r0) s = none := by
    by_contra hne
    obtain ⟨j, -, hj⟩ := (State.walkString_atRest_iff hrest s.walkFuel (s.reg .r0)).mp
      (Option.isSome_iff_ne_none.mpr hne)
    exact hnz _ hj
  exact afterWalk_fault.mpr hnone

/-- The hang of R12 and U12 can happen, if the word delivered at the end of input is not 0. -/
theorem test_endless_string_can_happen (h : Config.eofSentinel ≠ 0) :
    ∃ s : State, exec .trapPuts s = .fault .endlessString :=
  endless_of_no_zero h (ones 65536 0) fun x => lookup_ones _ _ _ (by omega) (by have := x.isLt; omega)

end Sys2Proof.Tests
end

section
/-!
PROOFS. The condition flags (10_state.md R27, R28): what `setcc` leaves, and which instructions write COND.
-/

namespace Sys2Proof.Machine

variable {s t : State}

/-! ### The flag of a value (R27) -/

/-- The model tests bit 15 where R27 compares with 0x8000. -/
theorem condOf_eq (v : Word) :
    condOf v = if v.toNat = 0 then .Z else if 0x8000 ≤ v.toNat then .N else .P := by
  have hzero : v = 0 ↔ v.toNat = 0 := BitVec.toNat_inj.symm
  have hsign : v.getLsbD 15 = decide (0x8000 ≤ v.toNat) :=
    (BitVec.msb_eq_getLsbD_last v).symm.trans (BitVec.msb_eq_decide v)
  simp only [condOf, hzero, hsign, decide_eq_true_eq]

theorem flagOf_condOf (v : Word) : FlagOf v (condOf v) := by
  rw [condOf_eq]
  refine ⟨fun hz => if_pos hz, fun hn => ?_, fun h1 hp => ?_⟩
  · rw [if_neg (by omega), if_pos hn]
  · rw [if_neg (by omega), if_neg (by omega)]

theorem State.flagOf_writeResult (u : State) (dr : Reg) (v : Word) :
    FlagOf ((u.writeResult dr v).reg dr) (u.writeResult dr v).cond := by
  rw [State.reg_writeResult, if_pos rfl, State.cond_writeResult]
  exact flagOf_condOf v

/-- Settles O14: `setcc` replaces COND by the flag of its argument and is nothing but that replacement. -/
theorem flagUpdateRule : Obligations.FlagUpdateRule := fun _ v =>
  ⟨flagOf_condOf v, rfl, fun _ => rfl, rfl, rfl, rfl, fun _ => rfl, rfl⟩

/-! ### COND in the services, the walk and the image load -/

@[simp] theorem State.cond_serviceGetc (s : State) : s.serviceGetc.cond = s.cond := by
  obtain ⟨-, h⟩ | ⟨-, h⟩ := s.serviceGetc_cases <;> simp [h]

@[simp] theorem State.cond_serviceIn (s : State) : s.serviceIn.cond = s.cond := by
  obtain ⟨-, h⟩ | ⟨-, h⟩ := s.serviceIn_cases <;> simp [h]

@[simp] theorem State.cond_serviceOut (s : State) : s.serviceOut.cond = s.cond := rfl

@[simp] theorem State.cond_serviceHalt (s : State) : s.serviceHalt.cond = s.cond := rfl

theorem State.cond_of_printString {emit : Word → List Byte} (h : s.printString emit = .next t) :
    t.cond = s.cond := by
  obtain ⟨-, -, hcond, -⟩ := State.printString_frame h
  exact hcond

/-- A load that succeeds happens before the start and is the plain writes of R168 from the origin on. -/
theorem State.loadImage_ok {bytes : List Byte} (h : s.loadImage bytes = .ok t) :
    s.run = .ready ∧ ∃ origin ws, imageWords bytes = origin :: ws ∧ t = s.storeWords origin.toNat ws := by
  unfold State.loadImage at h
  split at h
  · rename_i hrun
    split at h
    · cases h
    · rename_i origin ws hwords
      exact ⟨hrun, origin, ws, hwords, (Except.ok.inj h).symm⟩
  · cases h

theorem State.cond_of_loadImage {bytes : List Byte} (h : s.loadImage bytes = .ok t) : t.cond = s.cond := by
  obtain ⟨-, origin, ws, -, rfl⟩ := State.loadImage_ok h
  obtain ⟨-, -, hcond, -⟩ := s.storeWords_frame ws origin.toNat
  exact hcond

/-! ### COND over all instructions (R28) -/

/-- The generic TRAP, whatever its vector: a service, or nothing (R132). -/
theorem cond_of_execTrap {v : BitVec 8} (h : execTrap v s = .next t) : t.cond = s.cond := by
  unfold execTrap at h
  split_ifs at h
  · cases h; exact s.cond_serviceGetc
  · cases h; exact s.cond_serviceOut
  · exact State.cond_of_printString h
  · cases h; exact s.cond_serviceIn
  · exact State.cond_of_printString h
  · cases h; exact s.cond_serviceHalt
  · cases h; rfl

/-- Every instruction that R28 lists ends with `x[DR] <- v; setcc(v)`. -/
theorem exec_eq_writeResult_of_flagReg {i : Instr} {dr : Reg} (h : flagReg i = some dr) (s : State) :
    ∃ (u : State) (v : Word), exec i s = .next (u.writeResult dr v) := by
  cases i with
  | addReg | addImm | andReg | andImm | not | ld | ldi | ldr | lea => cases h; exact ⟨_, _, rfl⟩
  | br | jmp | jsr | jsrr | st | sti | str => cases h
  | trap | trapGetc | trapOut | trapPuts | trapIn | trapPutsp | trapHalt | rti | res => cases h

/-- No other instruction writes COND. -/
theorem cond_of_exec_of_flagReg_none {i : Instr} (hi : flagReg i = none) (h : exec i s = .next t) :
    t.cond = s.cond := by
  cases i with
  | addReg | addImm | andReg | andImm | not | ld | ldi | ldr | lea => cases hi
  | br | jmp | jsr | jsrr | st | str | rti | res => cases h; rfl
  | sti sr off => cases h; exact s.cond_touch (s.pcRel9 off)
  | trap v => exact cond_of_execTrap h
  | trapGetc => cases h; exact s.cond_serviceGetc
  | trapIn => cases h; exact s.cond_serviceIn
  | trapOut => cases h; exact s.cond_serviceOut
  | trapHalt => cases h; exact s.cond_serviceHalt
  | trapPuts | trapPutsp => exact State.cond_of_printString h

/-- Settles O53: a listed instruction ends in `writeResult`, no other touches COND, and neither do the fetch, the poll
and the load. -/
theorem onlyTheListedInstructionsWriteCond : Obligations.OnlyTheListedInstructionsWriteCond := by
  refine ⟨fun i s t h => ?_, fun s => ⟨?_, s.cond_pollKeyboard⟩, fun s t bytes => State.cond_of_loadImage⟩
  · split
    · rename_i dr hi
      obtain ⟨u, v, hexec⟩ := exec_eq_writeResult_of_flagReg hi s
      obtain rfl : u.writeResult dr v = t := Host.Outcome.next.inj (hexec.symm.trans h)
      exact u.flagOf_writeResult dr v
    · rename_i hi
      exact cond_of_exec_of_flagReg_none hi h
  · exact s.cond_touch s.pc

end Sys2Proof.Machine
end

section
/-!
PROOFS. The write primitive (20_memory.md R44, R52): what a store changes, and what a later read gives.
-/

namespace Sys2Proof.Machine

/-- R44: a store is a plain write of one cell, at every address. -/
theorem State.storesOnly_memWrite (s : State) (a v : Word) : StoresOnly s (s.memWrite a v) a v := by
  have hthere : (s.memWrite a v).cell a = v := by rw [State.cell_memWrite, if_pos rfl]
  have hframe : CellsSameBut a s (s.memWrite a v) := fun x hx => by rw [State.cell_memWrite, if_neg hx]
  exact ⟨hthere, hframe, fun _ => rfl, rfl, rfl, rfl, rfl, rfl⟩

/-- R52: a read that does not poll gives the stored word at the stored address and what it gave before elsewhere. -/
theorem State.memRead_memWrite_fst (s : State) (a v : Word) {b : Word} (hb : b ≠ Config.kbsr) :
    ((s.memWrite a v).memRead b).1 = if b = a then v else (s.memRead b).1 := by
  rw [State.memRead_of_ne _ hb, State.memRead_of_ne _ hb, State.cell_memWrite]

/-- Settles O28: the store changes one cell, and away from the status port a read is a read of the cell. -/
theorem storeThenRead : Obligations.StoreThenRead := fun s a v =>
  ⟨s.storesOnly_memWrite a v, fun _ hb => s.memRead_memWrite_fst a v hb⟩

end Sys2Proof.Machine
end

section
/-!
PROOFS. The operate instructions (40_operate.md R91 to R98): what ADD, AND and NOT write, and that they write nothing
else.
-/

namespace Sys2Proof.Machine

section results
variable (dr sr sr1 sr2 : Reg) (imm5 : BitVec 5) (s : State)

/-! ### The end of every operate instruction (R28) -/

/-- `x[DR] <- v; setcc(v)` changes one register and the flag, whatever `v` was computed from. -/
theorem State.writesOnly_writeResult (v : Word) : WritesOnly s (s.writeResult dr v) dr v := by
  have hvalue : (s.writeResult dr v).reg dr = v := by rw [State.reg_writeResult, if_pos rfl]
  have hframe : RegsSameBut dr s (s.writeResult dr v) := fun q hq => by rw [State.reg_writeResult, if_neg hq]
  exact ⟨hvalue, hframe, flagOf_condOf v, rfl, rfl, rfl, fun _ => rfl, rfl⟩

/-! ### The result of each form -/

theorem exec_addReg : exec (.addReg dr sr1 sr2) s = .next (s.writeResult dr (s.reg sr1 + s.reg sr2)) := rfl

theorem exec_addImm : exec (.addImm dr sr1 imm5) s = .next (s.writeResult dr (s.reg sr1 + sext16 imm5)) := rfl

theorem exec_andReg : exec (.andReg dr sr1 sr2) s = .next (s.writeResult dr (s.reg sr1 &&& s.reg sr2)) := rfl

theorem exec_andImm : exec (.andImm dr sr1 imm5) s = .next (s.writeResult dr (s.reg sr1 &&& sext16 imm5)) := rfl

theorem exec_not : exec (.not dr sr) s = .next (s.writeResult dr (~~~ s.reg sr)) := rfl

end results

/-! ### The obligations -/

/-- Settles O7: the result is the sum of two words, which is the sum of the numbers modulo 65536 (R91). -/
theorem addRegisterForm : Obligations.AddRegisterForm := fun dr sr1 sr2 x s =>
  ⟨decode_addReg dr sr1 sr2 x, _, _, exec_addReg dr sr1 sr2 s, BitVec.toNat_add _ _, s.writesOnly_writeResult dr _⟩

/-- Settles O8: as O7, with the sign-extended immediate for the second operand (R92). -/
theorem addImmediateForm : Obligations.AddImmediateForm := fun dr sr1 imm5 s =>
  ⟨decode_addImm dr sr1 imm5, _, _, exec_addImm dr sr1 imm5 s, BitVec.toNat_add _ _, s.writesOnly_writeResult dr _⟩

/-- Settles O9: bit `i` of the result is the AND of the two bits `i` (R93). -/
theorem andRegisterForm : Obligations.AndRegisterForm := fun dr sr1 sr2 x s =>
  ⟨decode_andReg dr sr1 sr2 x, _, _, exec_andReg dr sr1 sr2 s, fun _ _ => BitVec.getLsbD_and,
    s.writesOnly_writeResult dr _⟩

/-- Settles O10: as O9, with the sign-extended immediate for the second operand (R94). -/
theorem andImmediateForm : Obligations.AndImmediateForm := fun dr sr1 imm5 s =>
  ⟨decode_andImm dr sr1 imm5, _, _, exec_andImm dr sr1 imm5 s, fun _ _ => BitVec.getLsbD_and,
    s.writesOnly_writeResult dr _⟩

/-- Settles O11: the one's complement of a word is its distance from 65535 (R95). -/
theorem notIsTheComplement : Obligations.NotIsTheComplement := fun dr sr x s =>
  ⟨decode_not dr sr x, _, _, exec_not dr sr s, BitVec.toNat_not, s.writesOnly_writeResult dr _⟩

/-- Settles O12: the two forms put their second operand in the same place (R98). -/
theorem immediateAndRegisterFormsAgree : Obligations.ImmediateAndRegisterFormsAgree := fun dr sr1 sr2 imm5 s hsr2 => by
  rw [exec_addReg, exec_addImm, exec_andReg, exec_andImm, hsr2]
  exact ⟨rfl, rfl⟩

end Sys2Proof.Machine
end

section
/-!
PROOFS. The control transfers (41_control.md R101, R102): where JMP and JSR go, and what they leave unchanged.
-/

namespace Sys2Proof.Machine

section transfers
variable (s : State)

/-! ### The updates of a control transfer -/

/-- A write to PC is nothing but a jump, whatever the target (R104). -/
theorem State.jumpsOnly_setPc (p : Word) : JumpsOnly s (s.setPc p) p :=
  ⟨rfl, fun _ => rfl, rfl, rfl, rfl, fun _ => rfl, rfl⟩

/-- A write to one register leaves the other seven. -/
theorem State.regsSameBut_setReg (r : Reg) (v : Word) : RegsSameBut r s (s.setReg r v) :=
  fun _ hq => s.reg_setReg_ne hq v

/-! ### The next state of each form -/

theorem exec_jmp (base : Reg) : exec (.jmp base) s = .next (s.setPc (s.reg base)) := rfl

theorem exec_jsr (off : BitVec 11) :
    exec (.jsr off) s = .next ((s.setReg .r7 s.pc).setPc (s.pc + sext16 off)) := rfl

end transfers

/-! ### The obligations -/

/-- Settles O17: JMP is one write to PC, of the value BaseR holds, R7 (RET) being no special case (R101). -/
theorem jumpGoesToTheBaseRegister : Obligations.JumpGoesToTheBaseRegister := fun base x y s =>
  ⟨decode_jmp base x y, _, exec_jmp s base, s.jumpsOnly_setPc _⟩

/-- Settles O18: JSR writes the return address to R7 and then jumps; the jump keeps what the link left (R102). -/
theorem jumpToSubroutineRelative : Obligations.JumpToSubroutineRelative := fun off s => by
  have hlink : (s.setReg .r7 s.pc).reg .r7 = s.pc := s.reg_setReg_self .r7 s.pc
  have hothers : RegsSameBut .r7 s (s.setReg .r7 s.pc) := s.regsSameBut_setReg .r7 s.pc
  obtain ⟨hpc, hregs, hcond, hrun, hprompt, hcells, hconsole⟩ :=
    (s.setReg .r7 s.pc).jumpsOnly_setPc (s.pc + sext16 off)
  exact ⟨decode_jsr off, _, exec_jsr s off, (hregs .r7).trans hlink, fun q hq => (hregs q).trans (hothers q hq),
    hpc, hcond, hrun, hprompt, hcells, hconsole⟩

end Sys2Proof.Machine
end

section
/-!
PROOFS. Loads, LEA and stores (42_load_store.md R111 to R117): what each reads and writes, and what it leaves unchanged,
the poll of a read at the status port included.
-/

namespace Sys2Proof.Machine

/-! ### What any read leaves (R43, R45)

Every form that reads memory is one or two reads and then a write; these frames are what the reads alone keep. -/

/-- What stays under reads, polls included: all but the two port cells and the console's input side. -/
structure ReadFrame (s u : State) : Prop where
  regs : RegsSame s u
  pc : u.pc = s.pc
  cond : u.cond = s.cond
  run : u.run = s.run
  promptShown : u.promptShown = s.promptShown
  output : u.console.output = s.console.output
  cells : ∀ x, x ≠ Config.kbsr → x ≠ Config.kbdr → u.cell x = s.cell x

/-- What stays under a load into `dr`: what stays under its reads, but for `dr` and the flag. -/
def LoadFrame (s t : State) (dr : Reg) : Prop :=
  RegsSameBut dr s t ∧ t.pc = s.pc ∧ t.run = s.run ∧ t.promptShown = s.promptShown ∧
    t.console.output = s.console.output ∧ ∀ x, x ≠ Config.kbsr → x ≠ Config.kbdr → t.cell x = s.cell x

section frames
variable {s u t : State} {dr : Reg} {v : Word}

theorem State.readFrame_memRead (s : State) (a : Word) : ReadFrame s (s.memRead a).2 where
  regs := s.reg_touch a
  pc := s.pc_touch a
  cond := s.cond_touch a
  run := s.run_touch a
  promptShown := s.promptShown_touch a
  output := s.output_touch a
  cells _ := s.cell_touch_of_ne a

theorem ReadFrame.trans (hu : ReadFrame s u) (ht : ReadFrame u t) : ReadFrame s t where
  regs r := (ht.regs r).trans (hu.regs r)
  pc := ht.pc.trans hu.pc
  cond := ht.cond.trans hu.cond
  run := ht.run.trans hu.run
  promptShown := ht.promptShown.trans hu.promptShown
  output := ht.output.trans hu.output
  cells x hsr hdr := (ht.cells x hsr hdr).trans (hu.cells x hsr hdr)

/-- Reads followed by a write of `dr` and the flag are a load into `dr`. -/
theorem ReadFrame.loadFrame (hu : ReadFrame s u) (ht : WritesOnly u t dr v) : LoadFrame s t dr := by
  obtain ⟨-, hregs, -, hpc, hrun, hprompt, hcells, hconsole⟩ := ht
  exact ⟨fun r hr => (hregs r hr).trans (hu.regs r), hpc.trans hu.pc, hrun.trans hu.run,
    hprompt.trans hu.promptShown, (congrArg Console.output hconsole).trans hu.output,
    fun x hsr hdr => (hcells x).trans (hu.cells x hsr hdr)⟩

end frames

section forms
variable (dr sr base : Reg) (off9 : BitVec 9) (off6 : BitVec 6) (s : State)

/-! ### The next state of each form -/

/-- `x[DR] <- MemRead(a); setcc`, the part that LD, LDR and the second half of LDI share. -/
def State.loadFrom (a : Word) : State := (s.memRead a).2.writeResult dr (s.memRead a).1

theorem exec_ld : exec (.ld dr off9) s = .next (s.loadFrom dr (s.pc + sext16 off9)) := rfl

theorem exec_ldi :
    exec (.ldi dr off9) s =
      .next ((s.memRead (s.pc + sext16 off9)).2.loadFrom dr (s.memRead (s.pc + sext16 off9)).1) := rfl

theorem exec_ldr : exec (.ldr dr base off6) s = .next (s.loadFrom dr (s.reg base + sext16 off6)) := rfl

theorem exec_lea : exec (.lea dr off9) s = .next (s.writeResult dr (s.pc + sext16 off9)) := rfl

theorem exec_st : exec (.st sr off9) s = .next (s.memWrite (s.pc + sext16 off9) (s.reg sr)) := rfl

theorem exec_sti :
    exec (.sti sr off9) s =
      .next ((s.memRead (s.pc + sext16 off9)).2.memWrite (s.memRead (s.pc + sext16 off9)).1 (s.reg sr)) := rfl

theorem exec_str : exec (.str sr base off6) s = .next (s.memWrite (s.reg base + sext16 off6) (s.reg sr)) := rfl

/-! ### The load from an address -/

theorem State.writesOnly_loadFrom (a : Word) :
    WritesOnly (s.memRead a).2 (s.loadFrom dr a) dr (s.memRead a).1 :=
  State.writesOnly_writeResult dr _ _

/-- Away from the status port nothing polls, so a load is a copy of the cell into `dr` (R45). -/
theorem State.writesOnly_loadFrom_of_ne {a : Word} (ha : a ≠ Config.kbsr) :
    WritesOnly s (s.loadFrom dr a) dr (s.cell a) := by
  have h := s.writesOnly_loadFrom dr a
  rwa [s.memRead_of_ne ha] at h

theorem State.loadFrame_loadFrom (a : Word) : LoadFrame s (s.loadFrom dr a) dr :=
  (s.readFrame_memRead a).loadFrame (s.writesOnly_loadFrom dr a)

end forms

/-! ### The obligations: loads and LEA -/

/-- Settles O20: LD is the load from the PC-relative address (R111). -/
theorem loadPcRelative : Obligations.LoadPcRelative := fun dr off s =>
  ⟨decode_ld dr off, _, exec_ld dr off s, s.writesOnly_loadFrom dr _, s.writesOnly_loadFrom_of_ne dr,
    s.loadFrame_loadFrom dr _⟩

/-- Settles O21: LDI is the load from the pointer, in the state the pointer's own read leaves (R112). Where neither
address is the status port that state is the old one. -/
theorem loadIndirect : Obligations.LoadIndirect := fun dr off s => by
  let a := s.pc + sext16 off
  let pointer := s.memRead a
  have hload := pointer.2.writesOnly_loadFrom dr pointer.1
  have hframe : LoadFrame s (pointer.2.loadFrom dr pointer.1) dr :=
    ((s.readFrame_memRead a).trans (pointer.2.readFrame_memRead pointer.1)).loadFrame hload
  have hplain : a ≠ Config.kbsr → s.cell a ≠ Config.kbsr →
      WritesOnly s (pointer.2.loadFrom dr pointer.1) dr (s.cell (s.cell a)) := fun ha hdata => by
    have hpointer : pointer = (s.cell a, s) := s.memRead_of_ne ha
    rw [hpointer]
    exact s.writesOnly_loadFrom_of_ne dr hdata
  exact ⟨decode_ldi dr off, _, exec_ldi dr off s, hload, hplain, hframe⟩

/-- Settles O22: LDR is the load from the base-relative address, which is taken before DR is written (R113). -/
theorem loadBasePlusOffset : Obligations.LoadBasePlusOffset := fun dr base off s =>
  ⟨decode_ldr dr base off, _, exec_ldr dr base off s, s.writesOnly_loadFrom dr _, s.writesOnly_loadFrom_of_ne dr,
    s.loadFrame_loadFrom dr _⟩

/-- Settles O23: LEA writes the address itself; it reads nothing, so nothing can poll (R114). -/
theorem loadEffectiveAddress : Obligations.LoadEffectiveAddress := fun dr off s =>
  ⟨decode_lea dr off, _, exec_lea dr off s, s.writesOnly_writeResult dr _⟩

/-! ### The obligations: stores -/

/-- Settles O24: ST is one plain store at the PC-relative address (R115). -/
theorem storePcRelative : Obligations.StorePcRelative := fun sr off s =>
  ⟨decode_st sr off, _, exec_st sr off s, s.storesOnly_memWrite _ _⟩

/-- Settles O25: STI is a plain store at the pointer, in the state the pointer's read leaves; only that read can poll
(R116). -/
theorem storeIndirect : Obligations.StoreIndirect := fun sr off s => by
  let a := s.pc + sext16 off
  let pointer := s.memRead a
  have hread : ReadFrame s pointer.2 := s.readFrame_memRead a
  have hstore := pointer.2.storesOnly_memWrite pointer.1 (s.reg sr)
  have hplain : a ≠ Config.kbsr →
      StoresOnly s (pointer.2.memWrite pointer.1 (s.reg sr)) (s.cell a) (s.reg sr) := fun ha => by
    have hpointer : pointer = (s.cell a, s) := s.memRead_of_ne ha
    rw [hpointer]
    exact s.storesOnly_memWrite (s.cell a) (s.reg sr)
  have ⟨_, hcells, hregs, hpc, hcond, hrun, hprompt, hconsole⟩ := hstore
  exact ⟨decode_sti sr off, _, exec_sti sr off s,
    ⟨hstore, fun x hx hsr hdr => (hcells x hx).trans (hread.cells x hsr hdr)⟩, hplain,
    fun r => (hregs r).trans (hread.regs r), hpc.trans hread.pc, hcond.trans hread.cond, hrun.trans hread.run,
    hprompt.trans hread.promptShown, (congrArg Console.output hconsole).trans hread.output⟩

/-- Settles O26: STR is one plain store at the base-relative address (R117). -/
theorem storeBasePlusOffset : Obligations.StoreBasePlusOffset := fun sr base off s =>
  ⟨decode_str sr base off, _, exec_str sr base off s, s.storesOnly_memWrite _ _⟩

end Sys2Proof.Machine
end

section
/-!
PROOFS. OUT (43_trap.md R127): the services' console writes, which change nothing but the output, and OUT as one of
them.
-/

namespace Sys2Proof.Machine

section consoleWrites
variable (s : State) (bs : List Byte)

/-- R138, R139: a write and the flush after it append to the output and leave the rest of the machine. -/
theorem State.writesConsoleOnly_conFlush_conWrite :
    WritesConsoleOnly s (s.conWrite bs).conFlush (bs.map ConsoleOut.byte ++ [.flush]) := by
  have hconsole : (s.conWrite bs).conFlush.console =
      { s.console with output := s.console.output ++ (bs.map ConsoleOut.byte ++ [.flush]) } :=
    congrArg (fun o => { s.console with output := o }) (List.append_assoc _ _ _)
  exact ⟨hconsole, fun _ => rfl, rfl, rfl, rfl, rfl, fun _ => rfl⟩

/-- The low byte of a word is its value modulo 256. -/
theorem lowByte_eq_ofNat_mod (w : Word) : lowByte w = BitVec.ofNat 8 (w.toNat % 256) :=
  BitVec.eq_of_toNat_eq (by simp [lowByte])

theorem exec_trapOut : exec .trapOut s = .next (s.conWrite [lowByte (s.reg .r0)]).conFlush := rfl

end consoleWrites

/-- R71: vector 0x21 selects OUT whatever the ignored bits [11:8] hold. -/
theorem decode_trapOut (x : BitVec 4) : decode (0b1111#4 ++ x ++ 0x21#8) = .trapOut :=
  decode_trapVector x 0x21#8

/-- Settles O33: OUT is the console write of one byte, the low byte of R0, and its flush (R127). -/
theorem outWritesTheLowByte : Obligations.OutWritesTheLowByte := fun x s => by
  rw [← lowByte_eq_ofNat_mod]
  exact ⟨decode_trapOut x, _, exec_trapOut s, s.writesConsoleOnly_conFlush_conWrite [lowByte (s.reg .r0)]⟩

end Sys2Proof.Machine
end

section
/-!
PROOFS. The decoder and the encoder over all words and all instructions (30_encoding.md R62 to R71): the round trip, the
ignored bits, the illegal words, and sign extension.
-/

namespace Sys2Proof.Machine

/-! ### Decode of encode (R62) -/

/-- R71: the generic TRAP is well formed when its vector selects no service. -/
theorem wellFormed_trap_iff {v : BitVec 8} : (Instr.trap v).wellFormed = true ↔ isServiceVector v = false := by
  simp [Instr.wellFormed]

/-- Settles O1: the encoder's word is the form's format with one choice of the ignored bits, and the format's decode
lemma holds for every choice. -/
theorem decodeOfEncodeIsTheInstruction : Obligations.DecodeOfEncodeIsTheInstruction := fun i hi => by
  cases i with
  | addReg dr sr1 sr2 => exact decode_addReg dr sr1 sr2 0b00#2
  | addImm dr sr1 imm5 => exact decode_addImm dr sr1 imm5
  | andReg dr sr1 sr2 => exact decode_andReg dr sr1 sr2 0b00#2
  | andImm dr sr1 imm5 => exact decode_andImm dr sr1 imm5
  | not dr sr => exact decode_not dr sr 0b111111#6
  | br n z p off => exact decode_br n z p off
  | jmp base => exact decode_jmp base 0b000#3 0b000000#6
  | jsr off => exact decode_jsr off
  | jsrr base => exact decode_jsrr base 0b00#2 0b000000#6
  | ld dr off => exact decode_ld dr off
  | ldi dr off => exact decode_ldi dr off
  | ldr dr base off => exact decode_ldr dr base off
  | lea dr off => exact decode_lea dr off
  | st sr off => exact decode_st sr off
  | sti sr off => exact decode_sti sr off
  | str sr base off => exact decode_str sr base off
  | trap v =>
    exact (decode_trapVector 0b0000#4 v).trans (decodeTrap_of_other (wellFormed_trap_iff.mp hi))
  | trapGetc => exact decode_trapVector 0b0000#4 0x20#8
  | trapOut => exact decode_trapVector 0b0000#4 0x21#8
  | trapPuts => exact decode_trapVector 0b0000#4 0x22#8
  | trapIn => exact decode_trapVector 0b0000#4 0x23#8
  | trapPutsp => exact decode_trapVector 0b0000#4 0x24#8
  | trapHalt => exact decode_trapVector 0b0000#4 0x25#8
  | rti low => exact decode_rti low
  | res low => exact decode_res low

/-! ### Ignored bits (R67) -/

section agreeing
variable {w w' m : Word}

/-- Words that agree under a mask agree in every field the mask covers. -/
theorem extractLsb'_eq_of_and_eq {k n : Nat} (h : w &&& m = w' &&& m) (hm : m.extractLsb' k n = BitVec.allOnes n) :
    w'.extractLsb' k n = w.extractLsb' k n := by
  have := congrArg (BitVec.extractLsb' k n) h
  simpa [BitVec.extractLsb'_and, hm] using this.symm

/-- Words that agree under a mask agree in every bit the mask covers. -/
theorem getLsbD_eq_of_and_eq {k : Nat} (h : w &&& m = w' &&& m) (hm : m.getLsbD k = true) :
    w'.getLsbD k = w.getLsbD k := by
  have := congrArg (BitVec.getLsbD · k) h
  simpa [hm] using this.symm

/-- R61: the opcode is never ignored. -/
theorem opcodeBits_significant (i : Instr) : (significantBits i).extractLsb' 12 4 = BitVec.allOnes 4 := by
  cases i <;> simp only [significantBits] <;> decide

end agreeing

/-- No bit of a form is ignored: then agreeing words are equal. -/
theorem eq_of_and_allOnes_eq {w w' : Word} (h : w &&& 0xFFFF#16 = w' &&& 0xFFFF#16) : w' = w := by
  have hall : (0xFFFF#16 : Word) = BitVec.allOnes 16 := rfl
  rw [hall, BitVec.and_allOnes, BitVec.and_allOnes] at h
  exact h.symm

theorem significantBits_decodeTrap (v : BitVec 8) : significantBits (decodeTrap v) = 0xF0FF#16 := by
  unfold decodeTrap
  split_ifs <;> rfl

/-- Settles O2: agreeing words have the same opcode, and then the same bits in every field the form of that opcode
reads. -/
theorem ignoredBitsNeverMatter : Obligations.IgnoredBitsNeverMatter := fun w w' h => by
  have hop : opcodeOf w' = opcodeOf w :=
    congrArg Opcode.ofBits (extractLsb'_eq_of_and_eq h (opcodeBits_significant _))
  cases ho : opcodeOf w with
  | br | ld | st | ldi | sti | lea | ldr | str | rti | res =>
    simp only [decode, ho] at h
    rw [eq_of_and_allOnes_eq h]
  | add | and =>
    cases h5 : w.getLsbD 5 with
    | true =>
      simp only [decode, ho, h5] at h
      rw [eq_of_and_allOnes_eq h]
    | false =>
      simp only [decode, ho, h5, Bool.false_eq_true, if_false, significantBits] at h
      have hdr := extractLsb'_eq_of_and_eq (k := 9) (n := 3) h (by decide)
      have hsr1 := extractLsb'_eq_of_and_eq (k := 6) (n := 3) h (by decide)
      have hsr2 := extractLsb'_eq_of_and_eq (k := 0) (n := 3) h (by decide)
      have h5' := (getLsbD_eq_of_and_eq (k := 5) h (by decide)).trans h5
      simp only [decode, hop, ho, h5, h5', fieldDR, fieldSR1, fieldSR2, hdr, hsr1, hsr2, Bool.false_eq_true,
        if_false]
  | jsr =>
    cases h11 : w.getLsbD 11 with
    | true =>
      simp only [decode, ho, h11] at h
      rw [eq_of_and_allOnes_eq h]
    | false =>
      simp only [decode, ho, h11, Bool.false_eq_true, if_false, significantBits] at h
      have hbase := extractLsb'_eq_of_and_eq (k := 6) (n := 3) h (by decide)
      have h11' := (getLsbD_eq_of_and_eq (k := 11) h (by decide)).trans h11
      simp only [decode, hop, ho, h11, h11', fieldSR1, hbase, Bool.false_eq_true, if_false]
  | not =>
    simp only [decode, ho, significantBits] at h
    have hdr := extractLsb'_eq_of_and_eq (k := 9) (n := 3) h (by decide)
    have hsr := extractLsb'_eq_of_and_eq (k := 6) (n := 3) h (by decide)
    simp only [decode, hop, ho, fieldDR, fieldSR1, hdr, hsr]
  | jmp =>
    simp only [decode, ho, significantBits] at h
    have hbase := extractLsb'_eq_of_and_eq (k := 6) (n := 3) h (by decide)
    simp only [decode, hop, ho, fieldSR1, hbase]
  | trap =>
    simp only [decode, ho, significantBits_decodeTrap] at h
    have hv := extractLsb'_eq_of_and_eq (k := 0) (n := 8) h (by decide)
    simp only [decode, hop, ho, fieldTrapvect8, hv]

/-! ### Every word (R70)

Each lemma takes a word apart along one format of R62; the encoder puts the fields together again. -/

/-- `i` is well formed and its word is `w` but for ignored bits: what R70 says of `decode w`. -/
def KeepsWord (w : Word) (i : Instr) : Prop :=
  i.wellFormed = true ∧ encode i &&& significantBits i = w &&& significantBits i

section formats
variable {w : Word} {op : BitVec 4}

theorem keepsWord_of_encode_eq {i : Instr} (hi : i.wellFormed = true) (h : encode i = w) : KeepsWord w i :=
  ⟨hi, by rw [h]⟩

@[simp] theorem toBits_fieldDR : (fieldDR w).toBits = w.extractLsb' 9 3 := Reg.toBits_ofBits _
@[simp] theorem toBits_fieldSR1 : (fieldSR1 w).toBits = w.extractLsb' 6 3 := Reg.toBits_ofBits _
@[simp] theorem toBits_fieldSR2 : (fieldSR2 w).toBits = w.extractLsb' 0 3 := Reg.toBits_ofBits _

theorem append_fieldLow12 (h : w.extractLsb' 12 4 = op) : op ++ fieldLow12 w = w := by
  rw [← h, fieldLow12]
  grind

theorem append_regOffset9 (h : w.extractLsb' 12 4 = op) : op ++ (fieldDR w).toBits ++ fieldPcOffset9 w = w := by
  rw [← h, toBits_fieldDR, fieldPcOffset9]
  grind

theorem append_regRegOffset6 (h : w.extractLsb' 12 4 = op) :
    op ++ (fieldDR w).toBits ++ (fieldSR1 w).toBits ++ fieldOffset6 w = w := by
  rw [← h, toBits_fieldDR, toBits_fieldSR1, fieldOffset6]
  grind

theorem append_regRegImm5 (h : w.extractLsb' 12 4 = op) (h5 : w.getLsbD 5 = true) :
    op ++ (fieldDR w).toBits ++ (fieldSR1 w).toBits ++ 0b1#1 ++ fieldImm5 w = w := by
  rw [← h, toBits_fieldDR, toBits_fieldSR1, fieldImm5]
  grind

theorem append_maskOffset9 (h : w.extractLsb' 12 4 = op) :
    op ++ BitVec.ofBool (w.getLsbD 11) ++ BitVec.ofBool (w.getLsbD 10) ++ BitVec.ofBool (w.getLsbD 9) ++
      fieldPcOffset9 w = w := by
  rw [← h, fieldPcOffset9]
  grind

theorem append_offset11 (h : w.extractLsb' 12 4 = op) (h11 : w.getLsbD 11 = true) :
    op ++ 0b1#1 ++ fieldPcOffset11 w = w := by
  rw [← h, fieldPcOffset11]
  grind

theorem append_regRegReg (h : w.extractLsb' 12 4 = op) (h5 : w.getLsbD 5 = false) :
    op ++ (fieldDR w).toBits ++ (fieldSR1 w).toBits ++ 0b0#1 ++ w.extractLsb' 3 2 ++ (fieldSR2 w).toBits = w := by
  rw [← h, toBits_fieldDR, toBits_fieldSR1, toBits_fieldSR2]
  grind

theorem append_regReg (h : w.extractLsb' 12 4 = op) :
    op ++ (fieldDR w).toBits ++ (fieldSR1 w).toBits ++ w.extractLsb' 0 6 = w := by
  rw [← h, toBits_fieldDR, toBits_fieldSR1]
  grind

theorem append_base (h : w.extractLsb' 12 4 = op) :
    op ++ w.extractLsb' 9 3 ++ (fieldSR1 w).toBits ++ w.extractLsb' 0 6 = w := by
  rw [← h, toBits_fieldSR1]
  grind

theorem append_zeroBase (h : w.extractLsb' 12 4 = op) (h11 : w.getLsbD 11 = false) :
    op ++ 0b0#1 ++ w.extractLsb' 9 2 ++ (fieldSR1 w).toBits ++ w.extractLsb' 0 6 = w := by
  rw [← h, toBits_fieldSR1]
  grind

theorem append_trapvect8 (h : w.extractLsb' 12 4 = op) : op ++ w.extractLsb' 8 4 ++ fieldTrapvect8 w = w := by
  rw [← h, fieldTrapvect8]
  grind

/-! The forms with ignored bits: there the encoder's choice and the word's own bits meet a zero of the mask. -/

theorem and_ignoredLow {a b : Nat} (u : BitVec a) (x x' : BitVec b) :
    (u ++ x) &&& (BitVec.allOnes a ++ 0#b) = (u ++ x') &&& (BitVec.allOnes a ++ 0#b) := by
  simp [BitVec.and_append]

theorem and_ignoredMiddle {a b c : Nat} (u : BitVec a) (x x' : BitVec b) (v : BitVec c) :
    (u ++ x ++ v) &&& (BitVec.allOnes a ++ 0#b ++ BitVec.allOnes c) =
      (u ++ x' ++ v) &&& (BitVec.allOnes a ++ 0#b ++ BitVec.allOnes c) := by
  simp [BitVec.and_append]

theorem and_ignoredTwice {a b c d : Nat} (u : BitVec a) (x x' : BitVec b) (v : BitVec c) (y y' : BitVec d) :
    (u ++ x ++ v ++ y) &&& (BitVec.allOnes a ++ 0#b ++ BitVec.allOnes c ++ 0#d) =
      (u ++ x' ++ v ++ y') &&& (BitVec.allOnes a ++ 0#b ++ BitVec.allOnes c ++ 0#d) := by
  simp [BitVec.and_append]

theorem and_regRegReg (h : w.extractLsb' 12 4 = op) (h5 : w.getLsbD 5 = false) :
    (op ++ (fieldDR w).toBits ++ (fieldSR1 w).toBits ++ 0b0#1 ++ 0b00#2 ++ (fieldSR2 w).toBits) &&& 0xFFE7#16 =
      w &&& 0xFFE7#16 :=
  (and_ignoredMiddle (op ++ (fieldDR w).toBits ++ (fieldSR1 w).toBits ++ 0#1) 0#2 _ (fieldSR2 w).toBits).trans
    (congrArg (· &&& 0xFFE7#16) (append_regRegReg h h5))

theorem keepsWord_not (h : w.extractLsb' 12 4 = 9#4) : KeepsWord w (.not (fieldDR w) (fieldSR1 w)) :=
  ⟨rfl, (and_ignoredLow (9#4 ++ (fieldDR w).toBits ++ (fieldSR1 w).toBits) 0b111111#6 _).trans
    (congrArg (· &&& 0xFFC0#16) (append_regReg h))⟩

theorem keepsWord_jmp (h : w.extractLsb' 12 4 = 12#4) : KeepsWord w (.jmp (fieldSR1 w)) :=
  ⟨rfl, (and_ignoredTwice 12#4 0#3 _ (fieldSR1 w).toBits 0#6 _).trans
    (congrArg (· &&& 0xF1C0#16) (append_base h))⟩

theorem keepsWord_jsrr (h : w.extractLsb' 12 4 = 4#4) (h11 : w.getLsbD 11 = false) :
    KeepsWord w (.jsrr (fieldSR1 w)) :=
  ⟨rfl, (and_ignoredTwice (4#4 ++ 0#1) 0#2 _ (fieldSR1 w).toBits 0#6 _).trans
    (congrArg (· &&& 0xF9C0#16) (append_zeroBase h h11))⟩

theorem encode_decodeTrap (v : BitVec 8) : encode (decodeTrap v) = 0b1111#4 ++ 0b0000#4 ++ v := by
  unfold decodeTrap
  split_ifs <;> simp_all [encode]

theorem wellFormed_decodeTrap (v : BitVec 8) : (decodeTrap v).wellFormed = true := by
  revert v; decide

theorem keepsWord_decodeTrap (h : w.extractLsb' 12 4 = 15#4) : KeepsWord w (decodeTrap (fieldTrapvect8 w)) := by
  refine ⟨wellFormed_decodeTrap _, ?_⟩
  rw [encode_decodeTrap, significantBits_decodeTrap]
  exact (and_ignoredMiddle 15#4 0#4 _ (fieldTrapvect8 w)).trans (congrArg (· &&& 0xF0FF#16) (append_trapvect8 h))

theorem keepsWord_decode (w : Word) : KeepsWord w (decode w) := by
  have hop : ∀ b : BitVec 4, b = 0 ∨ b = 1 ∨ b = 2 ∨ b = 3 ∨ b = 4 ∨ b = 5 ∨ b = 6 ∨ b = 7 ∨ b = 8 ∨ b = 9 ∨
      b = 10 ∨ b = 11 ∨ b = 12 ∨ b = 13 ∨ b = 14 ∨ b = 15 := by decide
  rcases hop (w.extractLsb' 12 4) with h | h | h | h | h | h | h | h | h | h | h | h | h | h | h | h
  · rw [decode_of_opcode_br h]
    exact keepsWord_of_encode_eq rfl (append_maskOffset9 h)
  · rw [decode_of_opcode_add h]
    split
    · exact keepsWord_of_encode_eq rfl (append_regRegImm5 h ‹_›)
    · exact ⟨rfl, and_regRegReg h (Bool.eq_false_of_not_eq_true ‹_›)⟩
  · rw [decode_of_opcode_ld h]
    exact keepsWord_of_encode_eq rfl (append_regOffset9 h)
  · rw [decode_of_opcode_st h]
    exact keepsWord_of_encode_eq rfl (append_regOffset9 h)
  · rw [decode_of_opcode_jsr h]
    split
    · exact keepsWord_of_encode_eq rfl (append_offset11 h ‹_›)
    · exact keepsWord_jsrr h (Bool.eq_false_of_not_eq_true ‹_›)
  · rw [decode_of_opcode_and h]
    split
    · exact keepsWord_of_encode_eq rfl (append_regRegImm5 h ‹_›)
    · exact ⟨rfl, and_regRegReg h (Bool.eq_false_of_not_eq_true ‹_›)⟩
  · rw [decode_of_opcode_ldr h]
    exact keepsWord_of_encode_eq rfl (append_regRegOffset6 h)
  · rw [decode_of_opcode_str h]
    exact keepsWord_of_encode_eq rfl (append_regRegOffset6 h)
  · rw [decode_of_opcode_rti h]
    exact keepsWord_of_encode_eq rfl (append_fieldLow12 h)
  · rw [decode_of_opcode_not h]
    exact keepsWord_not h
  · rw [decode_of_opcode_ldi h]
    exact keepsWord_of_encode_eq rfl (append_regOffset9 h)
  · rw [decode_of_opcode_sti h]
    exact keepsWord_of_encode_eq rfl (append_regOffset9 h)
  · rw [decode_of_opcode_jmp h]
    exact keepsWord_jmp h
  · rw [decode_of_opcode_res h]
    exact keepsWord_of_encode_eq rfl (append_fieldLow12 h)
  · rw [decode_of_opcode_lea h]
    exact keepsWord_of_encode_eq rfl (append_regOffset9 h)
  · rw [decode_of_opcode_trap h]
    exact keepsWord_decodeTrap h

end formats

/-- Settles O3: opcode by opcode, the fields the decoder cuts out are the whole word but for ignored bits. -/
theorem everyWordIsAnInstruction : Obligations.EveryWordIsAnInstruction := keepsWord_decode

/-! ### The illegal words (R68) -/

/-- A form that ignores no bit has one word, the encoder's. -/
theorem eq_encode_of_decode {w : Word} {i : Instr} (h : decode w = i) (hfull : significantBits i = 0xFFFF#16) :
    w = encode i := by
  obtain ⟨-, hkeep⟩ := keepsWord_decode w
  rw [h, hfull] at hkeep
  exact eq_of_and_allOnes_eq hkeep

theorem eq_of_decode_rti {w : Word} {x : BitVec 12} (h : decode w = .rti x) : w = 0b1000#4 ++ x :=
  eq_encode_of_decode h rfl

theorem eq_of_decode_res {w : Word} {x : BitVec 12} (h : decode w = .res x) : w = 0b1101#4 ++ x :=
  eq_encode_of_decode h rfl

/-- The ranges of R68 are the words of opcodes 8 and 13. -/
theorem illegalWord_iff_opcode (w : Word) :
    illegalWord w ↔ w.extractLsb' 12 4 = 8#4 ∨ w.extractLsb' 12 4 = 13#4 := by
  have hnum : (w.extractLsb' 12 4).toNat = w.toNat / 4096 := by
    rw [BitVec.extractLsb'_toNat, Nat.shiftRight_eq_div_pow]
    have := w.isLt
    omega
  simp only [illegalWord, ← BitVec.toNat_inj, hnum, BitVec.reduceToNat]
  omega

theorem illegalWord_append_8 (x : BitVec 12) : illegalWord (0b1000#4 ++ x) :=
  (illegalWord_iff_opcode _).mpr (.inl (by grind))

theorem illegalWord_append_13 (x : BitVec 12) : illegalWord (0b1101#4 ++ x) :=
  (illegalWord_iff_opcode _).mpr (.inr (by grind))

theorem illegalWord_iff_decode (w : Word) :
    illegalWord w ↔ (∃ x, decode w = .rti x) ∨ ∃ x, decode w = .res x := by
  constructor
  · intro hw
    rcases (illegalWord_iff_opcode w).mp hw with h | h
    · exact .inl ⟨_, decode_of_opcode_rti h⟩
    · exact .inr ⟨_, decode_of_opcode_res h⟩
  · rintro (⟨x, hx⟩ | ⟨x, hx⟩)
    · exact eq_of_decode_rti hx ▸ illegalWord_append_8 x
    · exact eq_of_decode_res hx ▸ illegalWord_append_13 x

/-- Settles O4: opcodes 8 and 13 are the two ranges, and neither form ignores a bit. -/
theorem illegalWordsAreOpcodes8And13 : Obligations.IllegalWordsAreOpcodes8And13 :=
  ⟨illegalWord_iff_decode, fun _ _ => eq_of_decode_rti, fun _ _ => eq_of_decode_res⟩

/-! ### Sample words and sign extension -/

/-- Settles O5: each word is decoded. -/
theorem sampleWordsDecode : Obligations.SampleWordsDecode := by
  unfold Obligations.SampleWordsDecode
  decide

/-- R64, at any width a word has room for: a negative field gains the ones above it. -/
theorem sext16_toNat {n : Nat} (hn : n ≤ 16) (f : BitVec n) :
    (sext16 f).toNat = if f.msb then f.toNat + (65536 - 2 ^ n) else f.toNat := by
  have hmod : f.toNat % 2 ^ 16 = f.toNat :=
    Nat.mod_eq_of_lt (f.isLt.trans_le (Nat.pow_le_pow_right (by omega) hn))
  rw [sext16, BitVec.toNat_signExtend, BitVec.toNat_setWidth, hmod]
  split <;> rfl

theorem extractLsb'_sext16 {n : Nat} (hn : n ≤ 16) (f : BitVec n) : (sext16 f).extractLsb' 0 n = f := by
  ext i hi
  have hi16 : i < 16 := by omega
  simp [sext16, BitVec.getElem_signExtend, hi, hi16]

/-- Settles O13: each of the four widths fits a word. -/
theorem signExtensionAtEveryWidth : Obligations.SignExtensionAtEveryWidth := fun n hn f => by
  have hle : n ≤ 16 := by omega
  rw [sext16_toNat hle, BitVec.msb_eq_getLsbD_last]
  exact ⟨rfl, extractLsb'_sext16 hle f⟩

end Sys2Proof.Machine
end

section
/-!
PROOFS. The control transfers that test or link (41_control.md R100, R103) and the words that do nothing (R69, R132).
-/

namespace Sys2Proof.Machine

section transfers
variable (s : State)

/-! ### The branch test (R100) -/

theorem branchTaken_iff (n z p : Bool) (c : Cond) :
    branchTaken n z p c = true ↔ (n ∧ c = .N) ∨ (z ∧ c = .Z) ∨ (p ∧ c = .P) := by
  cases c <;> simp [branchTaken]

/-- Settles O15: COND is one-hot, so the AND keeps just the mask bit of the flag that is set. -/
theorem branchTestIsMaskAndCond : Obligations.BranchTestIsMaskAndCond := fun n z p c => by
  cases c with
  | P => exact ⟨by revert n z p; decide, .inl rfl⟩
  | Z => exact ⟨by revert n z p; decide, .inr (.inl rfl)⟩
  | N => exact ⟨by revert n z p; decide, .inr (.inr rfl)⟩

/-! ### The next state of each form -/

theorem exec_br (n z p : Bool) (off : BitVec 9) :
    exec (.br n z p off) s = .next (s.setPc (if branchTaken n z p s.cond then s.pc + sext16 off else s.pc)) := rfl

theorem exec_jsrr (base : Reg) :
    exec (.jsrr base) s = .next ((s.setReg .r7 s.pc).setPc ((s.setReg .r7 s.pc).reg base)) := rfl

@[simp] theorem State.setPc_pc : s.setPc s.pc = s := rfl

/-- R132: the generic TRAP does nothing when its vector selects no service. -/
theorem exec_trap_of_other {v : BitVec 8} (hv : isServiceVector v = false) : exec (.trap v) s = .next s := by
  have hne : ∀ u : BitVec 8, isServiceVector u = true → v ≠ u := fun u hu he => by rw [he, hu] at hv; cases hv
  simp only [exec, execTrap, hne 0x20#8 (by decide), hne 0x21#8 (by decide), hne 0x22#8 (by decide),
    hne 0x23#8 (by decide), hne 0x24#8 (by decide), hne 0x25#8 (by decide), if_false]

end transfers

/-! ### The obligations -/

/-- Settles O16: BR is one write to PC, of the target or of PC itself (R100). -/
theorem branchIsConditional : Obligations.BranchIsConditional := fun n z p off s => by
  refine ⟨decode_br n z p off, _, exec_br s n z p off, ?_⟩
  simp only [branchTaken_iff]
  exact s.jumpsOnly_setPc _

/-- Settles O19: the base is read in the state where R7 already holds the return address (R103). -/
theorem jumpToSubroutineThroughRegister : Obligations.JumpToSubroutineThroughRegister := fun base x y s =>
  ⟨decode_jsrr base x y, _, exec_jsrr s base, s.reg_setReg_self .r7 s.pc, s.regsSameBut_setReg .r7 s.pc,
    s.reg_setReg .r7 base s.pc, rfl, rfl, rfl, fun _ => rfl, rfl⟩

/-- Settles O38: the decoder gives the generic TRAP, which does nothing (R132). -/
theorem otherVectorsDoNothing : Obligations.OtherVectorsDoNothing := fun x v hv => by
  have hother : isServiceVector v = false := by
    simp only [isServiceVector, Bool.and_eq_false_iff, decide_eq_false_iff_not, BitVec.le_def, BitVec.toNat_ofNat]
    omega
  exact ⟨(decode_trapVector x v).trans (decodeTrap_of_other hother), fun s => exec_trap_of_other s hother⟩

/-- The three bits of a BR mask, named. -/
theorem append_mask (m : BitVec 3) :
    0b0000#4 ++ m =
      0b0000#4 ++ BitVec.ofBool (m.getLsbD 2) ++ BitVec.ofBool (m.getLsbD 1) ++ BitVec.ofBool (m.getLsbD 0) := by
  revert m; decide

/-- Settles O6: a branch that is not taken, or is taken to the next address, writes PC with itself; and O38. -/
theorem noOperationWordsChangeNothing : Obligations.NoOperationWordsChangeNothing := by
  refine ⟨fun off s => ?_, fun m s => ?_, fun x v s hv => ?_⟩
  · have hdecode : decode (0b0000#4 ++ 0b000#3 ++ off) = .br false false false off := decode_br false false false off
    have hstay : ¬ branchTaken false false false s.cond = true := by simp [branchTaken_iff]
    rw [hdecode]
    simp [exec_br, hstay]
  · have hdecode : decode (0b0000#4 ++ m ++ 0#9) = .br (m.getLsbD 2) (m.getLsbD 1) (m.getLsbD 0) 0#9 := by
      rw [append_mask]
      exact decode_br _ _ _ _
    have hzero : sext16 0#9 = 0 := rfl
    rw [hdecode]
    simp [exec_br, hzero]
  · obtain ⟨hdecode, hexec⟩ := otherVectorsDoNothing x v hv
    rw [hdecode]
    exact hexec s

end Sys2Proof.Machine
end

section
/-!
PROOFS. The keyboard ports (20_memory.md R43, R45) and the console (43_trap.md R135 to R139): what a poll and a read can
do, and the trap services but for the two that walk memory.
-/

namespace Sys2Proof.Machine

section console
variable (s : State)

/-! ### The poll and the console read -/

theorem zext16_toNat (b : Byte) : (zext16 b).toNat = b.toNat := by
  have := b.isLt
  simp only [zext16, BitVec.zeroExtend, BitVec.toNat_setWidth]
  omega

theorem Console.readable_iff {c : Console} : c.readable = true ↔ c.input ≠ [] ∨ c.ended = true := by
  simp [Console.readable]

theorem Console.readable_eq_false_iff {c : Console} : c.readable = false ↔ c.input = [] ∧ c.ended = false := by
  simp [Console.readable]

/-- R137: a read delivers exactly when it does not block. -/
theorem State.isSome_conRead : s.conRead.isSome = s.console.readable := by
  unfold State.conRead
  cases s.console.readable <;> rfl

theorem Console.nextWord_of_cons {c : Console} {b : Byte} {rest : List Byte} (h : c.input = b :: rest) :
    c.nextWord.toNat = b.toNat := by
  rw [Console.nextWord, h]
  exact zext16_toNat b

theorem Console.nextWord_of_nil {c : Console} (h : c.input = []) : c.nextWord = Config.eofSentinel := by
  rw [Console.nextWord, h]

/-- A read of an empty input takes nothing. -/
theorem Console.afterRead_of_nil {c : Console} (h : c.input = []) : c.afterRead = c := by
  cases c
  simp_all [Console.afterRead]

/-! ### GETC and IN (R126, R129) -/

theorem exec_trapGetc : exec .trapGetc s = .next s.serviceGetc := rfl

theorem exec_trapIn : exec .trapIn s = .next s.serviceIn := rfl

theorem exec_trapHalt : exec .trapHalt s = .next ((s.conWrite Config.haltMsg).conFlush.setRun .halted) := rfl

theorem State.serviceGetc_of_readable (h : s.console.readable = true) :
    s.serviceGetc = (s.setConsole s.console.afterRead).setReg .r0 s.console.nextWord := by
  rcases s.serviceGetc_cases with ⟨-, heq⟩ | ⟨hno, -⟩
  · exact heq
  · rw [h] at hno; cases hno

theorem State.serviceGetc_of_blocked (h : s.console.readable = false) : s.serviceGetc = s.setPc (s.pc - 1) := by
  rcases s.serviceGetc_cases with ⟨hyes, -⟩ | ⟨-, heq⟩
  · rw [h] at hyes; cases hyes
  · exact heq

theorem State.serviceIn_of_readable (h : s.console.readable = true) :
    s.serviceIn = ((s.setConsole
      (((s.console.prompted s.promptShown).afterRead.write [lowByte s.console.nextWord]).flush)).setReg .r0
        s.console.nextWord).setPromptShown false := by
  rcases s.serviceIn_cases with ⟨-, heq⟩ | ⟨hno, -⟩
  · exact heq
  · rw [h] at hno; cases hno

theorem State.serviceIn_of_blocked (h : s.console.readable = false) :
    s.serviceIn = ((s.setConsole (s.console.prompted s.promptShown)).setPromptShown true).setPc (s.pc - 1) := by
  rcases s.serviceIn_cases with ⟨hyes, -⟩ | ⟨-, heq⟩
  · rw [h] at hyes; cases hyes
  · exact heq

/-- The console after IN, field by field. -/
theorem Console.prompted_afterRead_write_flush (c : Console) (shown : Bool) (b : Byte) :
    ((c.prompted shown).afterRead.write [b]).flush =
      { c with
        input := c.input.tail
        output := c.output ++ (if shown then [] else Config.inPrompt.map ConsoleOut.byte ++ [.flush]) ++
          [.byte b, .flush] } := by
  cases shown <;> simp [Console.prompted, Console.afterRead, Console.write, Console.flush]

/-! ### HALT, the dispatch, and the fatal opcodes -/

/-- R146: raising the exception changes the run state and nothing else. -/
theorem State.jumpsOnly_raiseIllegal (ir : Word) :
    JumpsOnly (s.setRun (s.raiseIllegal ir).run) (s.raiseIllegal ir) s.pc :=
  ⟨rfl, fun _ => rfl, rfl, rfl, rfl, fun _ => rfl, rfl⟩

theorem exec_rti (low : BitVec 12) : exec (.rti low) s = .next (s.raiseIllegal (0b1000#4 ++ low)) := rfl

theorem exec_res (low : BitVec 12) : exec (.res low) s = .next (s.raiseIllegal (0b1101#4 ++ low)) := rfl

end console

/-! ### The obligations -/

/-- Settles O31: with a character the read is `nextWord` and `afterRead` at the head; without one it is the sentinel or
blocks, as the end of input says (R137). -/
theorem consoleReadDelivers : Obligations.ConsoleReadDelivers := fun s => by
  refine ⟨fun b rest h => ?_, fun h hended => ?_, fun h hended => ?_⟩
  · have htail : s.console.afterRead = { s.console with input := rest } := by rw [Console.afterRead, h]; rfl
    exact ⟨_, Console.nextWord_of_cons h,
      htail ▸ s.conRead_of_readable (Console.readable_iff.mpr (.inl (by simp [h])))⟩
  · have hread := s.conRead_of_readable (Console.readable_iff.mpr (.inr hended))
    rwa [Console.nextWord_of_nil h, Console.afterRead_of_nil h] at hread
  · exact s.conRead_of_not_readable (Console.readable_eq_false_iff.mpr ⟨h, hended⟩)

/-- Settles O30: an answer true needs `readable`, and where that holds the first answer the environment fixes is the
answer (R136). -/
theorem pollAnswersAreFree : Obligations.PollAnswersAreFree := fun s => by
  refine ⟨fun h => ?_, rfl, rfl, rfl, fun h answer => ⟨[answer], false, ?_⟩⟩
  · rw [s.isSome_conRead]
    exact Console.readable_of_poll h
  · rw [s.isSome_conRead] at h
    exact (congrArg (· && answer) h).trans (Bool.true_and answer)

/-- Settles O27: `memRead_kbsr` gives the value, `cell_pollKeyboard` every cell, by the answer of the poll (R43); a read
elsewhere does not touch anything (R45). -/
theorem readPollsTheStatusPort : Obligations.ReadPollsTheStatusPort := fun s => by
  have hread : s.memRead 0xFE00#16 = (if s.console.poll.1 then Config.kbsrReady else 0, s.pollKeyboard) :=
    s.memRead_kbsr
  refine ⟨fun hp => ?_, fun hp => ?_, fun x hsr hdr => ?_, fun a => ?_, fun a ha => s.memRead_of_ne ha⟩
  · rw [hread, hp]
    refine ⟨rfl, ?_, _, _, s.conRead_of_readable (Console.readable_of_poll hp), ?_, ?_⟩
    · simp [s.cell_pollKeyboard, hp, Config.kbsr, Config.kbsrReady]
    · simp [s.cell_pollKeyboard, hp, Config.kbsr, Config.kbdr]
    · simp [s.input_pollKeyboard, hp]
  · rw [hread, hp]
    refine ⟨rfl, ?_, ?_, ?_⟩
    · simp [s.cell_pollKeyboard, hp, Config.kbsr]
    · simp [s.cell_pollKeyboard, hp, Config.kbsr]
    · simp [s.input_pollKeyboard, hp]
  · exact s.cell_touch_of_ne 0xFE00#16 hsr hdr
  · have hframe := s.readFrame_memRead a
    exact ⟨hframe.regs, hframe.pc, hframe.cond, hframe.run, hframe.promptShown, hframe.output⟩

/-- Settles O32: the read that does not block is one write to R0 and one to the console (R126). -/
theorem getcReadsOneCharacter : Obligations.GetcReadsOneCharacter := fun x s => by
  refine ⟨decode_trapVector x 0x20#8, fun h => ⟨_, exec_trapGetc s, ?_⟩⟩
  rw [s.serviceGetc_of_readable (Console.readable_iff.mpr h), State.reg_setReg_self]
  exact ⟨fun b rest => Console.nextWord_of_cons, Console.nextWord_of_nil, rfl,
    (s.setConsole s.console.afterRead).regsSameBut_setReg .r0 _, rfl, rfl, rfl, rfl, fun _ => rfl⟩

/-- Settles O35: as O32, with the prompt and the echo in the output (R129). -/
theorem inPromptsReadsAndEchoes : Obligations.InPromptsReadsAndEchoes := fun x s => by
  refine ⟨decode_trapVector x 0x23#8, fun h => ⟨_, exec_trapIn s, ?_⟩⟩
  rw [s.serviceIn_of_readable (Console.readable_iff.mpr h), State.reg_setPromptShown, State.reg_setReg_self,
    ← lowByte_eq_ofNat_mod]
  exact ⟨fun b rest => Console.nextWord_of_cons, Console.nextWord_of_nil,
    s.console.prompted_afterRead_write_flush s.promptShown _,
    fun q hq => State.reg_setReg_ne _ hq _, rfl, rfl, rfl, rfl, fun _ => rfl⟩

/-- Settles O37: HALT is a console write and the change of the run state (R131). -/
theorem haltAnnouncesAndStops : Obligations.HaltAnnouncesAndStops := fun x s =>
  ⟨decode_trapVector x 0x25#8, _, exec_trapHalt s, rfl, rfl, fun _ => rfl, rfl, rfl, rfl, fun _ => rfl⟩

/-- Settles O39: the decoder turns the six vectors into the service rows, and the generic term dispatches alike
(R125). -/
theorem trapSelectsTheService : Obligations.TrapSelectsTheService := by
  refine ⟨fun x s => ?_, fun s => ⟨rfl, rfl, rfl, rfl, rfl, rfl⟩⟩
  have hservice : ∀ v : BitVec 8, exec (decode (0b1111#4 ++ x ++ v)) s = exec (decodeTrap v) s := fun v => by
    rw [decode_trapVector]
  exact ⟨hservice _, hservice _, hservice _, hservice _, hservice _, hservice _⟩

/-- Settles O44: both opcodes raise the exception with their own word (R133, R134). -/
theorem fatalOpcodesRaiseIllegalOpcode : Obligations.FatalOpcodesRaiseIllegalOpcode := fun x s =>
  ⟨⟨decode_rti x, _, exec_rti s x, rfl, s.jumpsOnly_raiseIllegal _⟩,
    ⟨decode_res x, _, exec_res s x, rfl, s.jumpsOnly_raiseIllegal _⟩⟩

end Sys2Proof.Machine
end

section
/-!
PROOFS. The step (10_state.md R30), the start and the reset (R36, R171), the blocked reads (60_exceptions.md R159), the
fault as a step (R146), and the fetch of a word just stored (20_memory.md R56).
-/

namespace Sys2Proof.Machine

section steps
variable {s : State}

/-! ### One step, by the run state -/

theorem step_of_ready (h : s.run = .ready) : step s = .next s.start := by
  unfold step
  rw [h]

theorem step_of_running (h : s.run = .running) : step s = exec (decode s.fetch.1) s.fetch.2 := by
  unfold step
  rw [h]

theorem step_of_halted (h : s.run = .halted) : step s = .fault .coreHalted := by
  unfold step
  rw [h]

theorem step_of_faulted {a ir : Word} (h : s.run = .faulted a ir) : step s = .fault (.coreFaulted a ir) := by
  unfold step
  rw [h]

/-- Away from the status port the fetch only moves PC (R45). -/
theorem State.fetch_of_ne (h : s.pc ≠ Config.kbsr) : s.fetch = (s.cell s.pc, s.setPc (s.pc + 1)) := by
  unfold State.fetch
  rw [s.memRead_of_ne h]

/-- The step at an address where memory holds the instruction `i`. -/
theorem step_at {i : Instr} (hrun : s.run = .running) (hpc : s.pc ≠ Config.kbsr) (hi : decode (s.cell s.pc) = i) :
    step s = exec i (s.setPc (s.pc + 1)) := by
  rw [step_of_running hrun, State.fetch_of_ne hpc, hi]

/-- R159: taking back the increment of the fetch. -/
theorem State.setPc_pred_succ (u : State) (h : u.pc = s.pc) : (u.setPc (s.pc + 1 - 1)) = u := by
  rw [BitVec.add_sub_cancel, ← h]
  rfl

theorem State.setPromptShown_of_eq {b : Bool} (h : s.promptShown = b) : s.setPromptShown b = s := by
  rw [← h]
  rfl

theorem State.setPromptShown_setPromptShown (b b' : Bool) :
    (s.setPromptShown b).setPromptShown b' = s.setPromptShown b' := rfl

end steps

/-! ### The obligations: step, start, reset -/

/-- Settles O46: the two cases are the fetch and the fetch away from the status port. -/
theorem stepRunsTheDecodedInstruction : Obligations.StepRunsTheDecodedInstruction := fun _ h =>
  ⟨step_of_running h, fun hpc => step_at h hpc rfl⟩

/-- Settles O47: the two terminal values of the run state. -/
theorem endedCoreTakesNoStep : Obligations.EndedCoreTakesNoStep := fun _ =>
  ⟨step_of_halted, fun _ _ => step_of_faulted⟩

/-- Settles O48: the start writes the run state only. -/
theorem startLeavesEverythingAsLoaded : Obligations.StartLeavesEverythingAsLoaded := fun s h =>
  ⟨s.start, step_of_ready h, rfl, rfl, fun _ => rfl, rfl, fun _ => rfl, rfl, rfl⟩

/-- Settles O49: reset lists no cell, so each reads its free value. -/
theorem resetState : Obligations.ResetState := by
  refine ⟨rfl, ?_, ?_, fun r => ?_, rfl, fun _ => rfl⟩
  · exact fun h => by cases h
  · rintro (h | ⟨a, ir, h⟩) <;> cases h
  · cases r <;> rfl

/-! ### The obligations: blocked reads -/

/-- Settles O40: the blocked GETC takes back the fetch, which changed nothing but PC. -/
theorem blockedGetcChangesNothing : Obligations.BlockedGetcChangesNothing := fun s hrun hpc hi hinput hended => by
  have hblocked : (s.setPc (s.pc + 1)).console.readable = false :=
    Console.readable_eq_false_iff.mpr ⟨hinput, hended⟩
  rw [step_at hrun hpc hi, exec_trapGetc, State.serviceGetc_of_blocked _ hblocked]
  exact congrArg Host.Outcome.next (State.setPc_pred_succ s rfl)

/-- The state an IN leaves when it blocks: the prompt written and marked. -/
def State.heldIn (s : State) : State := (s.setConsole (s.console.prompted s.promptShown)).setPromptShown true

/-- R159: a step at an IN that blocks writes the prompt, unless it stands written, and keeps PC. -/
theorem step_of_blockedIn {s : State} (hrun : s.run = .running) (hpc : s.pc ≠ Config.kbsr)
    (hi : decode (s.cell s.pc) = .trapIn) (hblocked : s.console.readable = false) : step s = .next s.heldIn := by
  rw [step_at hrun hpc hi, exec_trapIn, State.serviceIn_of_blocked (s.setPc (s.pc + 1)) hblocked]
  exact congrArg Host.Outcome.next (State.setPc_pred_succ s.heldIn rfl)

/-- R159: the character that lifts the block lets the IN complete as in O35, with no second prompt. -/
theorem step_heldIn_charArrives {s : State} (hrun : s.run = .running) (hpc : s.pc ≠ Config.kbsr)
    (hi : decode (s.cell s.pc) = .trapIn) (hempty : s.heldIn.console.input = []) (b : Byte) :
    ∃ u, step (s.heldIn.charArrives b) = .next u ∧ (u.reg .r0).toNat = b.toNat ∧ u.pc = s.pc + 1 ∧
      u.console = { s.heldIn.console with output := s.heldIn.console.output ++ [.byte b, .flush] } ∧
      RegsSameBut .r0 s u ∧ u.cond = s.cond ∧ u.run = .running ∧ u.promptShown = false ∧ CellsSame s u := by
  have hstep : step (s.heldIn.charArrives b) = exec .trapIn ((s.heldIn.charArrives b).setPc (s.pc + 1)) :=
    step_at (s := s.heldIn.charArrives b) hrun hpc hi
  have hinput : ((s.heldIn.charArrives b).setPc (s.pc + 1)).console.input = [b] := congrArg (· ++ [b]) hempty
  obtain ⟨-, hin⟩ := inPromptsReadsAndEchoes 0#4 ((s.heldIn.charArrives b).setPc (s.pc + 1))
  obtain ⟨u, hu, hchar, -, hconsole, hregs, hpcu, hcond, hrunu, hshown, hcells⟩ :=
    hin (.inl (by rw [hinput]; exact List.cons_ne_nil b []))
  have hr0 : (u.reg .r0).toNat = b.toNat := hchar b [] hinput
  have hecho : BitVec.ofNat 8 ((u.reg .r0).toNat % 256) = b := by
    rw [hr0, Nat.mod_eq_of_lt (show b.toNat < 256 from b.isLt), BitVec.ofNat_toNat, BitVec.setWidth_eq]
  refine ⟨u, hstep.trans hu, hr0, hpcu, ?_, hregs, hcond, hrunu.trans hrun, hshown, hcells⟩
  have hmarked : s.heldIn.promptShown = true := rfl
  rw [hconsole, hecho, hinput]
  simp [hmarked, hempty, State.charArrives]

/-- Settles O41: the blocked step gives `heldIn`, where a further step does the same until a character arrives. -/
theorem blockedInPromptsOnce : Obligations.BlockedInPromptsOnce := fun s hrun hpc hi hinput hended hshown => by
  have hheld : s.heldIn = (s.conWrite Config.inPrompt).conFlush.setPromptShown true := by
    rw [State.heldIn, hshown]
    rfl
  have hempty : s.heldIn.console.input = [] := by rw [hheld]; exact hinput
  have hopen : s.heldIn.console.ended = false := by rw [hheld]; exact hended
  have hfirst : step s = .next s.heldIn :=
    step_of_blockedIn hrun hpc hi (Console.readable_eq_false_iff.mpr ⟨hinput, hended⟩)
  have hsecond : step s.heldIn = .next s.heldIn.heldIn :=
    step_of_blockedIn (s := s.heldIn) hrun hpc hi (Console.readable_eq_false_iff.mpr ⟨hempty, hopen⟩)
  have hunmarked : s.heldIn.setPromptShown false = (s.conWrite Config.inPrompt).conFlush := by
    rw [hheld, State.setPromptShown_setPromptShown]
    exact State.setPromptShown_of_eq hshown
  exact ⟨s.heldIn, hfirst, hunmarked ▸ s.writesConsoleOnly_conFlush_conWrite Config.inPrompt, rfl, hsecond,
    step_heldIn_charArrives hrun hpc hi hempty⟩

/-! ### The obligations: the fault, and the fetch of a stored word -/

/-- R146: what the step of an illegal word is. -/
theorem step_of_illegal {s : State} (hrun : s.run = .running) (hw : illegalWord s.fetch.1) :
    step s = .next (s.fetch.2.raiseIllegal s.fetch.1) := by
  rw [step_of_running hrun]
  rcases (illegalWord_iff_decode _).mp hw with ⟨x, hx⟩ | ⟨x, hx⟩
  · rw [hx, exec_rti, ← eq_of_decode_rti hx]
  · rw [hx, exec_res, ← eq_of_decode_res hx]

/-- Settles O45: the fetch stands and the exception changes the run state only; that state takes no step. -/
theorem illegalWordEndsTheRun : Obligations.IllegalWordEndsTheRun := fun s hrun hw => by
  have hread := s.readFrame_memRead s.pc
  have hfault : (s.fetch.2.raiseIllegal s.fetch.1).run = .faulted s.pc s.fetch.1 :=
    congrArg (RunState.faulted · s.fetch.1) (BitVec.add_sub_cancel s.pc 1)
  have hplain : s.pc ≠ Config.kbsr → (s.memRead s.pc).2 = s := fun h => by rw [s.memRead_of_ne h]
  refine ⟨_, step_of_illegal hrun hw, hfault, rfl, hread.regs, hread.cond, hread.promptShown, fun _ => rfl, rfl,
    fun h => ⟨fun x => ?_, ?_⟩, step_of_faulted hfault⟩
  · show (s.memRead s.pc).2.cell x = s.cell x
    rw [hplain h]
  · show (s.memRead s.pc).2.console = s.console
    rw [hplain h]

/-- Settles O29: the ST writes the cell the next fetch reads, and that fetch does not poll (R56). -/
theorem storeIsSeenByTheNextFetch : Obligations.StoreIsSeenByTheNextFetch :=
  fun sr off s hrun hpc hcell hnext htarget => by
    have hi : decode (s.cell s.pc) = .st sr off := by rw [hcell]; exact decode_st sr off
    have hfirst : step s = .next ((s.setPc (s.pc + 1)).memWrite (s.pc + 1) (s.reg sr)) := by
      rw [step_at hrun hpc hi, exec_st, State.pc_setPc, htarget, State.reg_setPc]
    generalize ht : (s.setPc (s.pc + 1)).memWrite (s.pc + 1) (s.reg sr) = t at hfirst
    have htpc : t.pc = s.pc + 1 := by rw [← ht]; rfl
    have htrun : t.run = .running := by rw [← ht]; exact hrun
    have htcell : t.cell t.pc = s.reg sr := by rw [htpc, ← ht, State.cell_memWrite, if_pos rfl]
    refine ⟨t, hfirst, ?_⟩
    rw [step_at htrun (htpc ▸ hnext) (congrArg decode htcell), htpc, BitVec.add_assoc]
    rfl

end Sys2Proof.Machine
end

section
/-!
PROOFS. PUTS and PUTSP (43_trap.md R128, R130): the walk over a string, at and past the status port, and that it ends.
-/

namespace Sys2Proof.Machine

section walk
variable {emit : Word → List Byte} {s t u : State} {p q : Word} {ws : List Word}

/-! ### Fuel (R128, U12) -/

/-- The fuel of the meaning decides: a walk ends within it exactly when it ends at all. -/
theorem State.walkString_walkFuel_iff :
    State.walkString emit s.walkFuel p s = some t ↔ ∃ k, State.walkString emit k p s = some t :=
  ⟨fun h => ⟨_, h⟩, fun ⟨_, h⟩ => State.walkString_walkFuel h⟩

theorem State.printString_next_iff :
    s.printString emit = .next t ↔ ∃ k u, State.walkString emit k (s.reg .r0) s = some u ∧ t = u.conFlush := by
  simp only [State.printString, afterWalk_next, State.walkString_walkFuel_iff]
  exact ⟨fun ⟨u, ⟨k, hk⟩, ht⟩ => ⟨k, u, hk, ht⟩, fun ⟨k, u, hk, ht⟩ => ⟨u, ⟨k, hk⟩, ht⟩⟩

theorem State.printString_fault_iff :
    s.printString emit = .fault .endlessString ↔ ∀ k, State.walkString emit k (s.reg .r0) s = none := by
  simp only [State.printString, afterWalk_fault, Option.eq_none_iff_forall_ne_some, ne_eq,
    State.walkString_walkFuel_iff, not_exists]
  exact ⟨fun h k t => h t k, fun h t k => h k t⟩

/-- A walk whose first `n` words bring it to `q` in the state `u` is the walk from there. -/
theorem State.walkString_walkFuel_eq {n : Nat}
    (h : ∀ m, State.walkString emit (n + m) p s = State.walkString emit m q u) :
    State.walkString emit s.walkFuel p s = State.walkString emit u.walkFuel q u := by
  ext t
  rw [State.walkString_walkFuel_iff, State.walkString_walkFuel_iff]
  constructor
  · rintro ⟨k, hk⟩
    exact ⟨k, h k ▸ State.walkString_mono (Nat.le_add_left k n) hk⟩
  · rintro ⟨k, hk⟩
    exact ⟨n + k, (h k).trans hk⟩

/-! ### The walk over a string, up to the zero word or the status port -/

/-- Over the nonzero words `ws`, none of them at the status port, the walk writes what it emits for each. -/
theorem State.walkString_wordsAt (h : WordsAt s p ws) (m : Nat) :
    State.walkString emit (ws.length + m) p s =
      State.walkString emit m (p + BitVec.ofNat 16 ws.length) (s.conWrite (ws.flatMap emit)) := by
  induction ws generalizing p s with
  | nil => simp
  | cons w ws ih =>
    obtain ⟨hp, hcell, hw⟩ := h 0 (by simp)
    have hp : p ≠ Config.kbsr := by simpa using hp
    have hread : s.memRead p = (w, s) := by
      rw [s.memRead_of_ne hp]
      simpa using congrArg (·, s) hcell
    have hturn : s.walkTurn emit p = s.conWrite (emit w) := by rw [State.walkTurn, hread, s.touch_of_ne hp]
    have hrest : WordsAt (s.conWrite (emit w)) (p + 1) ws := fun i hi => by
      have := h (i + 1) (Nat.succ_lt_succ hi)
      rw [← addr_succ] at this
      exact this
    have hstart : ¬ (s.memRead p).1 = 0 := by rw [hread]; exact hw
    rw [List.length_cons, Nat.add_right_comm, State.walkString_succ, if_neg hstart, hturn, ih hrest, addr_succ,
      State.conWrite_conWrite, List.flatMap_cons]

theorem State.memRead_kbsr_fst : (s.memRead Config.kbsr).1 = if s.console.poll.1 then Config.kbsrReady else 0 := by
  rw [s.memRead_kbsr]

/-- A walk at a zero word ends there. -/
theorem State.walkString_of_zero (h : (s.memRead p).1 = 0) : State.walkString emit 1 p s = some (s.touch p) := by
  rw [State.walkString_succ, if_pos h]

/-- R128, R130: a string that ends in a zero word is written whole, and nothing else happens. -/
theorem State.printString_upToZero (h : WordsAt s (s.reg .r0) ws)
    (hend : s.reg .r0 + BitVec.ofNat 16 ws.length ≠ Config.kbsr)
    (hzero : s.cell (s.reg .r0 + BitVec.ofNat 16 ws.length) = 0) :
    s.printString emit = .next (s.conWrite (ws.flatMap emit)).conFlush := by
  refine State.printString_of_walk (k := ws.length + 1) ?_
  rw [State.walkString_wordsAt h, State.walkString_of_zero, State.touch_of_ne _ hend]
  rw [State.memRead_of_ne _ hend]
  exact hzero

/-- What a poll that answers false leaves in memory and in the input. -/
theorem State.pollKeyboard_of_noInput (hpoll : s.console.poll.1 = false) :
    s.pollKeyboard.cell Config.kbsr = 0 ∧ CellsSameBut Config.kbsr s s.pollKeyboard ∧
      s.pollKeyboard.console.input = s.console.input := by
  refine ⟨?_, fun x hx => ?_, ?_⟩
  · simp [s.cell_pollKeyboard, hpoll]
  · simp [s.cell_pollKeyboard, hpoll, hx]
  · simp [s.input_pollKeyboard, hpoll]

/-- R128, R130: a string that runs up to the status port with nothing pending ends there, the status cell cleared. -/
theorem State.printString_upToPort (h : WordsAt s (s.reg .r0) ws)
    (hport : s.reg .r0 + BitVec.ofNat 16 ws.length = Config.kbsr) (hpoll : s.console.poll.1 = false) :
    ∃ t, s.printString emit = .next t ∧
      t.console.output = s.console.output ++ (ws.flatMap emit).map ConsoleOut.byte ++ [.flush] ∧
      t.cell Config.kbsr = 0 ∧ CellsSameBut Config.kbsr s t ∧ t.console.input = s.console.input ∧
      RegsSame s t ∧ t.pc = s.pc ∧ t.cond = s.cond ∧ t.run = s.run ∧ t.promptShown = s.promptShown := by
  have hwalk : State.walkString emit (ws.length + 1) (s.reg .r0) s =
      some (s.conWrite (ws.flatMap emit)).pollKeyboard := by
    rw [State.walkString_wordsAt h, hport, State.walkString_of_zero, State.touch_kbsr]
    rw [State.memRead_kbsr_fst]
    exact if_neg (by rw [State.console_conWrite]; exact ne_true_of_eq_false hpoll)
  have hframe := (s.conWrite (ws.flatMap emit)).readFrame_memRead Config.kbsr
  obtain ⟨hkbsr, hcells, hinput⟩ := State.pollKeyboard_of_noInput (s := s.conWrite (ws.flatMap emit)) hpoll
  exact ⟨_, State.printString_of_walk hwalk, congrArg (· ++ [ConsoleOut.flush]) hframe.output, hkbsr, hcells, hinput,
    hframe.regs, hframe.pc, hframe.cond, hframe.run, hframe.promptShown⟩

/-! ### Past the status port -/

/-- The state in which PUTS or PUTSP, past a status port with a character pending, starts again at the next address. -/
def State.pastPort (emit : Word → List Byte) (s : State) (ws : List Word) : State :=
  ((s.conWrite (ws.flatMap emit)).walkTurn emit Config.kbsr).setReg .r0 (Config.kbsr + 1)

theorem State.setReg_setReg_reg (t : State) (r : Reg) (v : Word) : (t.setReg r v).setReg r (t.reg r) = t := by
  have hregs : ((t.regs.set r v).set r (t.regs.get r)) = t.regs := RegFile.ext_get fun q => by
    simp only [RegFile.get_set]
    split <;> simp_all
  cases t
  simp_all [State.setReg, State.reg]

/-- R128, R130: with a character pending the walk goes on past the port as a service started there would, but for R0,
which no walk reads or writes. -/
theorem State.printString_pastPort (h : WordsAt s (s.reg .r0) ws)
    (hport : s.reg .r0 + BitVec.ofNat 16 ws.length = Config.kbsr) (hpoll : s.console.poll.1 = true) :
    s.printString emit = onNext (fun t => t.setReg .r0 (s.reg .r0)) ((s.pastPort emit ws).printString emit) := by
  let v := (s.conWrite (ws.flatMap emit)).walkTurn emit Config.kbsr
  have hready : ¬ ((s.conWrite (ws.flatMap emit)).memRead Config.kbsr).1 = 0 := by
    rw [State.memRead_kbsr_fst, State.console_conWrite, if_pos (by exact hpoll)]
    decide
  have hwalk : State.walkString emit s.walkFuel (s.reg .r0) s =
      State.walkString emit v.walkFuel (Config.kbsr + 1) v :=
    State.walkString_walkFuel_eq (n := ws.length + 1) fun m => by
      rw [Nat.add_assoc, Nat.add_comm 1, State.walkString_wordsAt h, hport, State.walkString_succ, if_neg hready]
  have hagain : (s.pastPort emit ws).printString emit =
      afterWalk ((State.walkString emit v.walkFuel (Config.kbsr + 1) v).map (·.setReg .r0 (Config.kbsr + 1))) := by
    rw [← State.walkString_setReg]
    exact congrArg (fun a => afterWalk (State.walkString emit v.walkFuel a (s.pastPort emit ws)))
      (State.reg_setReg_self _ _ _)
  rw [hagain, State.printString, hwalk]
  cases hw : State.walkString emit v.walkFuel (Config.kbsr + 1) v with
  | none => rfl
  | some t =>
    obtain ⟨hregs, -⟩ := State.walkString_frame hw
    have hr0 : t.reg .r0 = s.reg .r0 := (congrArg (RegFile.get · .r0) hregs).trans (State.reg_touch _ _ _)
    exact congrArg Host.Outcome.next (hr0 ▸ (State.setReg_setReg_reg t.conFlush .r0 (Config.kbsr + 1)).symm)

theorem State.console_pollKeyboard (h : s.console.poll.1 = true) :
    s.pollKeyboard.console = { s.console with input := s.console.input.tail, polls := s.console.polls.tail } := by
  unfold State.pollKeyboard
  rw [if_pos h]
  rfl

/-- What `pastPort` holds: the string and the bytes of the ready value written, the pending character in the data port,
the start address in R0, and everything else as it was. -/
theorem State.pastPort_spec (hpoll : s.console.poll.1 = true) :
    (s.pastPort emit ws).reg .r0 = 0xFE01#16 ∧ RegsSameBut .r0 s (s.pastPort emit ws) ∧
      (s.pastPort emit ws).cell 0xFE00#16 = 0x8000#16 ∧
      (∃ v t, s.conRead = some (v, t) ∧ (s.pastPort emit ws).cell 0xFE02#16 = v) ∧
      (∀ x, x ≠ 0xFE00#16 → x ≠ 0xFE02#16 → (s.pastPort emit ws).cell x = s.cell x) ∧
      (s.pastPort emit ws).console = { s.console with
        input := s.console.input.tail
        polls := s.console.polls.tail
        output := s.console.output ++ (ws.flatMap emit).map ConsoleOut.byte ++
          (emit Config.kbsrReady).map ConsoleOut.byte } ∧
      (s.pastPort emit ws).pc = s.pc ∧ (s.pastPort emit ws).cond = s.cond ∧ (s.pastPort emit ws).run = s.run ∧
      (s.pastPort emit ws).promptShown = s.promptShown := by
  have hpoll' : (s.conWrite (ws.flatMap emit)).console.poll.1 = true := hpoll
  have hready : ((s.conWrite (ws.flatMap emit)).memRead Config.kbsr).1 = Config.kbsrReady := by
    rw [State.memRead_kbsr_fst, if_pos hpoll']
  have hread := (s.conWrite (ws.flatMap emit)).readFrame_memRead Config.kbsr
  have hpast : s.pastPort emit ws =
      ((s.conWrite (ws.flatMap emit)).pollKeyboard.conWrite (emit Config.kbsrReady)).setReg .r0 (Config.kbsr + 1) := by
    rw [State.pastPort, State.walkTurn, hready, State.touch_kbsr]
  have hcell : ∀ x, (s.pastPort emit ws).cell x = (s.conWrite (ws.flatMap emit)).pollKeyboard.cell x := fun x => by
    rw [hpast]
    rfl
  have hdelivers := s.conRead_of_readable (Console.readable_of_poll hpoll)
  refine ⟨State.reg_setReg_self _ _ _, fun r hr => ?_, ?_, ⟨_, _, hdelivers, ?_⟩, fun x hsr hdr => ?_, ?_,
    hread.pc, hread.cond, hread.run, hread.promptShown⟩
  · exact (State.reg_setReg_ne _ hr _).trans (hread.regs r)
  · rw [hcell, State.cell_pollKeyboard, hpoll']
    rfl
  · rw [hcell, State.cell_pollKeyboard, hpoll']
    rfl
  · exact (hcell x).trans (hread.cells x hsr hdr)
  · rw [hpast]
    simp only [State.console_setReg, State.console_conWrite, State.console_pollKeyboard hpoll']
    rfl

/-! ### That a walk ends while the input lasts -/

/-- Going up from any address one comes to the status port. -/
theorem exists_first_port (p : Word) :
    ∃ d, p + BitVec.ofNat 16 d = Config.kbsr ∧ ∀ j, j < d → p + BitVec.ofNat 16 j ≠ Config.kbsr := by
  have hex : ∃ d, p + BitVec.ofNat 16 d = Config.kbsr :=
    ⟨(Config.kbsr - p).toNat, by rw [BitVec.ofNat_toNat, BitVec.setWidth_eq]; ring⟩
  exact ⟨Nat.find hex, Nat.find_spec hex, fun j hj => Nat.find_min hex hj⟩

/-- One lap: the walk ends before the status port, or there if the poll answers false, or goes on past it. -/
theorem State.walkString_ends_of_port
    (past : s.console.poll.1 = true → ∀ bs, ∃ k t,
      State.walkString emit k (Config.kbsr + 1) ((s.conWrite bs).walkTurn emit Config.kbsr) = some t) :
    ∃ k t, State.walkString emit k p s = some t := by
  obtain ⟨d, hport, hbefore⟩ := exists_first_port p
  rcases State.walkString_segment (emit := emit) d p s hbefore with ⟨t, ht⟩ | ⟨bs, hbs⟩
  · exact ⟨d, t, ht⟩
  rw [hport] at hbs
  have hread : ((s.conWrite bs).memRead Config.kbsr).1 = if s.console.poll.1 then Config.kbsrReady else 0 :=
    State.memRead_kbsr_fst
  cases hpoll : s.console.poll.1 with
  | false =>
    exact ⟨d + 1, _, (hbs 1).trans (State.walkString_of_zero (by rw [hread, hpoll]; rfl))⟩
  | true =>
    obtain ⟨k, t, hk⟩ := past hpoll bs
    refine ⟨d + (k + 1), t, ?_⟩
    rw [hbs, State.walkString_succ, if_neg (by rw [hread, hpoll]; decide), hk]

/-- Until the input has ended every walk ends: each time round it stops at the status port or takes one of the finitely
many characters there. -/
theorem State.walkString_ends (hopen : s.console.ended = false) (p : Word) :
    ∃ k t, State.walkString emit k p s = some t := by
  induction hinput : s.console.input generalizing s p with
  | nil =>
    refine State.walkString_ends_of_port fun hpoll => ?_
    have hreadable := Console.readable_of_poll hpoll
    rw [Console.readable_eq_false_iff.mpr ⟨hinput, hopen⟩] at hreadable
    cases hreadable
  | cons b rest ih =>
    refine State.walkString_ends_of_port fun hpoll bs => ih ?_ _ ?_
    · simpa [State.walkTurn, State.touch_kbsr] using hopen
    · have hpoll' : (s.conWrite bs).console.poll.1 = true := hpoll
      rw [State.walkTurn, State.touch_kbsr, State.console_conWrite, Console.input_write,
        State.console_pollKeyboard hpoll']
      exact congrArg List.tail hinput

end walk

/-! ### What PUTS and PUTSP emit (D15) -/

theorem putsBytes_eq_lowByteOf : putsBytes = lowByteOf :=
  funext fun w => congrArg (fun b => [b]) (lowByte_eq_ofNat_mod w)

theorem highByte_eq_ofNat_div (w : Word) : highByte w = BitVec.ofNat 8 (w.toNat / 256) :=
  BitVec.eq_of_toNat_eq (by simp [highByte, Nat.shiftRight_eq_div_pow])

theorem putspBytes_eq_bothBytesOf : putspBytes = bothBytesOf := funext fun w => by
  have hzero : highByte w = 0 ↔ w.toNat / 256 = 0 := by
    have := w.isLt
    rw [highByte_eq_ofNat_div, ← BitVec.toNat_inj, BitVec.toNat_ofNat, show (0 : Byte).toNat = 0 from rfl]
    omega
  simp only [putspBytes, bothBytesOf, hzero, lowByte_eq_ofNat_mod, ← highByte_eq_ofNat_div]

theorem exec_trapPuts (s : State) : exec .trapPuts s = s.printString lowByteOf :=
  congrArg s.printString putsBytes_eq_lowByteOf

theorem exec_trapPutsp (s : State) : exec .trapPutsp s = s.printString bothBytesOf :=
  congrArg s.printString putspBytes_eq_bothBytesOf

/-! ### The obligations -/

/-- Settles O42: the fuel of the meaning is enough for every walk that ends. -/
theorem stringWalkIsNeverCutShort : Obligations.StringWalkIsNeverCutShort := fun _ =>
  ⟨fun _ => State.printString_next_iff, State.printString_fault_iff,
    fun _ => State.printString_next_iff, State.printString_fault_iff⟩

/-- Settles O34: the string up to its zero word, up to the status port, and past it (R128). -/
theorem putsWritesTheString : Obligations.PutsWritesTheString := by
  refine ⟨fun x => decode_trapVector x 0x22#8, fun s ws h hend hzero => ?_, fun s ws h hport hpoll => ?_,
    fun s ws h hport hpoll => ⟨s.pastPort lowByteOf ws, ?_, State.pastPort_spec hpoll⟩⟩
  · exact ⟨_, (exec_trapPuts s).trans (State.printString_upToZero h hend hzero),
      s.writesConsoleOnly_conFlush_conWrite _⟩
  · rw [exec_trapPuts]
    exact State.printString_upToPort h hport hpoll
  · rw [exec_trapPuts, exec_trapPuts]
    exact State.printString_pastPort h hport hpoll

/-- Settles O36: as O34, with both bytes of each word (R130). -/
theorem putspWritesTwoCharactersAWord : Obligations.PutspWritesTwoCharactersAWord := by
  refine ⟨fun x => decode_trapVector x 0x24#8, fun s ws h hend hzero => ?_, fun s ws h hport hpoll => ?_,
    fun s ws h hport hpoll => ⟨s.pastPort bothBytesOf ws, ?_, State.pastPort_spec hpoll⟩⟩
  · exact ⟨_, (exec_trapPutsp s).trans (State.printString_upToZero h hend hzero),
      s.writesConsoleOnly_conFlush_conWrite _⟩
  · rw [exec_trapPutsp]
    exact State.printString_upToPort h hport hpoll
  · rw [exec_trapPutsp, exec_trapPutsp]
    exact State.printString_pastPort h hport hpoll

/-- R145: while the input has not ended every well-formed instruction gives a next state, the two walks because they
end. -/
theorem exec_next_of_open {i : Instr} {s : State} (hi : i.wellFormed = true) (hopen : s.console.ended = false) :
    ∃ t, exec i s = .next t := by
  have hwalk : ∀ emit, ∃ t, s.printString emit = .next t := fun emit => by
    obtain ⟨k, t, hk⟩ := State.walkString_ends (emit := emit) hopen (s.reg .r0)
    exact ⟨_, State.printString_of_walk hk⟩
  cases i with
  | addReg | addImm | andReg | andImm | not | br | jmp | jsr | jsrr => exact ⟨_, rfl⟩
  | ld | ldi | ldr | lea | st | sti | str => exact ⟨_, rfl⟩
  | trapGetc | trapOut | trapIn | trapHalt | rti | res => exact ⟨_, rfl⟩
  | trap v => exact ⟨s, exec_trap_of_other s (wellFormed_trap_iff.mp hi)⟩
  | trapPuts | trapPutsp => exact hwalk _

/-- Settles O43: the fetch does not end the input, and what it decodes is well formed. -/
theorem runningCoreAlwaysSteps : Obligations.RunningCoreAlwaysSteps := fun s hrun hopen => by
  obtain ⟨hwf, -⟩ := everyWordIsAnInstruction s.fetch.1
  have hfetch : s.fetch.2.console.ended = false := by
    rw [s.fetch_snd, State.console_setPc, State.touch]
    split
    · rw [s.ended_pollKeyboard, hopen]
    · exact hopen
  rw [step_of_running hrun]
  exact exec_next_of_open hwf hfetch

end Sys2Proof.Machine
end

section
/-!
PROOFS. What a whole instruction can change (10_state.md R22, R30, R38, 20_memory.md R42), the invariant along every
step and every move of the environment, and the runs that never fault.
-/

namespace Sys2Proof.Machine

/-! ### What each group of instructions does -/

/-- `u` is `s` after the reads that `i` makes besides its fetch (R42): none, or reads that may have polled. -/
structure AfterReads (i : Instr) (s u : State) : Prop where
  frame : ReadFrame s u
  eq_of_none : readsMemory i = false → u = s
  wf : s.mem.wf → u.mem.wf

section groups
variable {i : Instr} {s t : State}

theorem AfterReads.refl (i : Instr) (s : State) : AfterReads i s s where
  frame := ⟨fun _ => rfl, rfl, rfl, rfl, rfl, rfl, fun _ _ _ => rfl⟩
  eq_of_none _ := rfl
  wf h := h

theorem AfterReads.one (hi : readsMemory i = true) (a : Word) : AfterReads i s (s.memRead a).2 where
  frame := s.readFrame_memRead a
  eq_of_none h := by rw [hi] at h; cases h
  wf := s.wf_touch a

theorem AfterReads.two (hi : readsMemory i = true) (a b : Word) : AfterReads i s ((s.memRead a).2.memRead b).2 where
  frame := (s.readFrame_memRead a).trans (State.readFrame_memRead _ b)
  eq_of_none h := by rw [hi] at h; cases h
  wf h := State.wf_touch _ b (s.wf_touch a h)

/-- The instructions that compute or load a result (R28) end with writing it and its flag after their reads. -/
theorem exec_result {dr : Reg} (hi : flagReg i = some dr) (h : exec i s = .next t) :
    ∃ u v, AfterReads i s u ∧ t = u.writeResult dr v := by
  cases i with
  | addReg | addImm | andReg | andImm | not | lea => cases hi; cases h; exact ⟨s, _, .refl _ s, rfl⟩
  | ld | ldr => cases hi; cases h; exact ⟨_, _, .one rfl _, rfl⟩
  | ldi => cases hi; cases h; exact ⟨_, _, .two rfl _ _, rfl⟩
  | br | jmp | jsr | jsrr | st | sti | str => cases hi
  | trap | trapGetc | trapOut | trapPuts | trapIn | trapPutsp | trapHalt | rti | res => cases hi

/-- The stores (R42) end with the one plain write after their reads. -/
theorem exec_store {a : Word} (hi : storeAddress i s = some a) (h : exec i s = .next t) :
    ∃ u v, AfterReads i s u ∧ t = u.memWrite a v := by
  cases i with
  | st | str => cases hi; cases h; exact ⟨s, _, .refl _ s, rfl⟩
  | sti => cases hi; cases h; exact ⟨_, _, .one rfl _, rfl⟩
  | addReg | addImm | andReg | andImm | not | br | jmp | jsr | jsrr | ld | ldi | ldr | lea => cases hi
  | trap | trapGetc | trapOut | trapPuts | trapIn | trapPutsp | trapHalt | rti | res => cases hi

/-- R132: a well-formed generic TRAP does nothing. -/
theorem eq_of_exec_trap {v : BitVec 8} (hi : (Instr.trap v).wellFormed = true) (h : exec (.trap v) s = .next t) :
    t = s := by
  rw [exec_trap_of_other s (wellFormed_trap_iff.mp hi)] at h
  exact (Host.Outcome.next.inj h).symm

/-- What GETC and IN leave unchanged, whether they complete or block (R126, R129, R159), and where PC stands. -/
structure ConsoleReadFrame (s t : State) : Prop where
  regs : RegsSameBut .r0 s t
  pc : t.pc = if s.console.readable then s.pc else s.pc - 1
  run : t.run = s.run
  mem : t.mem = s.mem

theorem State.consoleReadFrame_serviceGetc (s : State) : ConsoleReadFrame s s.serviceGetc := by
  rcases s.serviceGetc_cases with ⟨hr, h⟩ | ⟨hr, h⟩ <;> rw [h]
  · exact ⟨fun q hq => State.reg_setReg_ne _ hq _, by rw [hr]; rfl, rfl, rfl⟩
  · exact ⟨fun _ _ => rfl, by rw [hr]; rfl, rfl, rfl⟩

theorem State.consoleReadFrame_serviceIn (s : State) : ConsoleReadFrame s s.serviceIn := by
  rcases s.serviceIn_cases with ⟨hr, h⟩ | ⟨hr, h⟩ <;> rw [h]
  · exact ⟨fun q hq => State.reg_setReg_ne _ hq _, by rw [hr]; rfl, rfl, rfl⟩
  · exact ⟨fun _ _ => rfl, by rw [hr]; rfl, rfl, rfl⟩

theorem State.cell_of_mem_eq (h : t.mem = s.mem) (x : Word) : t.cell x = s.cell x := by
  rw [State.cell, h]
  rfl

theorem ConsoleReadFrame.cells (h : ConsoleReadFrame s t) : CellsSame s t := State.cell_of_mem_eq h.mem

end groups

/-! ### Registers (R22) -/

/-- Settles O54: a result or link register is listed, and the rest write none. -/
theorem onlyTheListedRegistersAreWritten : Obligations.OnlyTheListedRegistersAreWritten := fun i s t hi h r hr => by
  cases i with
  | addReg | addImm | andReg | andImm | not | ld | ldi | ldr | lea =>
    obtain ⟨u, v, hu, rfl⟩ := exec_result rfl h
    rw [State.reg_writeResult, if_neg (by simpa [writtenRegs] using hr), hu.frame.regs]
  | st | sti | str =>
    obtain ⟨u, v, hu, rfl⟩ := exec_store rfl h
    exact hu.frame.regs r
  | br | jmp | trapOut | trapHalt | rti | res => cases h; rfl
  | jsr | jsrr => cases h; exact State.reg_setReg_ne _ (by simpa [writtenRegs] using hr) _
  | trap v => rw [eq_of_exec_trap hi h]
  | trapGetc => cases h; exact s.consoleReadFrame_serviceGetc.regs r (by simpa [writtenRegs] using hr)
  | trapIn => cases h; exact s.consoleReadFrame_serviceIn.regs r (by simpa [writtenRegs] using hr)
  | trapPuts | trapPutsp =>
    obtain ⟨hregs, -⟩ := State.printString_frame h
    exact congrArg (RegFile.get · r) hregs

/-! ### PC (R38) -/

theorem blockedRead_iff {i : Instr} (hi : i = .trapGetc ∨ i = .trapIn) (s : State) :
    blockedRead i s ↔ s.console.readable = false := by
  rw [blockedRead, Console.readable_eq_false_iff]
  exact and_iff_right hi

theorem pc_of_consoleRead {i : Instr} {s t : State} (hi : i = .trapGetc ∨ i = .trapIn) (h : exec i s = .next t) :
    t.pc = if s.console.readable then s.pc else s.pc - 1 := by
  rcases hi with rfl | rfl <;> cases h
  · exact s.consoleReadFrame_serviceGetc.pc
  · exact s.consoleReadFrame_serviceIn.pc

/-- Every instruction but the two console reads leaves PC where the table says. -/
theorem pc_of_exec {i : Instr} {s t : State} (hi : i.wellFormed = true) (hread : ¬ (i = .trapGetc ∨ i = .trapIn))
    (h : exec i s = .next t) : t.pc = pcAtEnd i (s.pc - 1) s := by
  have hpc : s.pc - 1 + 1 = s.pc := BitVec.sub_add_cancel s.pc 1
  cases i with
  | addReg | addImm | andReg | andImm | not | ld | ldi | ldr | lea =>
    obtain ⟨u, v, hu, rfl⟩ := exec_result rfl h
    exact hu.frame.pc.trans hpc.symm
  | st | sti | str =>
    obtain ⟨u, v, hu, rfl⟩ := exec_store rfl h
    exact hu.frame.pc.trans hpc.symm
  | br n z p off =>
    cases h
    simp only [pcAtEnd, hpc, ← branchTaken_iff]
    rfl
  | jmp => cases h; rfl
  | jsr off => cases h; exact congrArg (· + off.signExtend 16) hpc.symm
  | jsrr base =>
    cases h
    simp only [pcAtEnd, hpc]
    exact s.reg_setReg .r7 base s.pc
  | trapOut | trapHalt | rti | res => cases h; exact hpc.symm
  | trap v => rw [eq_of_exec_trap hi h]; exact hpc.symm
  | trapGetc | trapIn => simp at hread
  | trapPuts | trapPutsp =>
    obtain ⟨-, hsame, -⟩ := State.printString_frame h
    exact hsame.trans hpc.symm

/-- Settles O55: the console reads by whether they block, every other instruction by the table. -/
theorem pcAtTheEndOfEveryInstruction : Obligations.PcAtTheEndOfEveryInstruction := fun i s t hi h => by
  by_cases hread : i = .trapGetc ∨ i = .trapIn
  · rw [blockedRead_iff hread, pc_of_consoleRead hread h]
    refine ⟨fun hr => by rw [hr]; rfl, fun hr => ?_⟩
    have hpc : pcAtEnd i (s.pc - 1) s = s.pc := by
      rcases hread with rfl | rfl <;> exact BitVec.sub_add_cancel s.pc 1
    rw [hpc, if_pos (by simpa using hr)]
  · exact ⟨fun hb => absurd hb.1 hread, fun _ => pc_of_exec hi hread h⟩

/-! ### Cells (R42) -/

/-- Settles O56: the one store is at the listed address, and only reads of its own can have polled. -/
theorem onlyStoresAndPollsChangeMemory : Obligations.OnlyStoresAndPollsChangeMemory := fun i s t hi h x hx hport => by
  have hreads : ∀ u, AfterReads i s u → u.cell x = s.cell x := fun u hu => by
    rcases hport with hnone | ⟨hsr, hdr⟩
    · rw [hu.eq_of_none hnone]
    · exact hu.frame.cells x hsr hdr
  cases i with
  | addReg | addImm | andReg | andImm | not | ld | ldi | ldr | lea =>
    obtain ⟨u, v, hu, rfl⟩ := exec_result rfl h
    exact hreads u hu
  | st | sti | str =>
    obtain ⟨u, v, hu, rfl⟩ := exec_store rfl h
    rw [State.cell_memWrite, if_neg fun he => hx (congrArg some he.symm)]
    exact hreads u hu
  | br | jmp | jsr | jsrr | trapOut | trapHalt | rti | res => cases h; rfl
  | trap v => rw [eq_of_exec_trap hi h]
  | trapGetc => cases h; exact s.consoleReadFrame_serviceGetc.cells x
  | trapIn => cases h; exact s.consoleReadFrame_serviceIn.cells x
  | trapPuts | trapPutsp =>
    obtain ⟨-, -, -, -, -, hcells, -⟩ := State.printString_frame h
    rcases hport with hnone | ⟨hsr, hdr⟩
    · cases hnone
    · exact hcells x hsr hdr

/-! ### The run state (R30) -/

/-- Settles O57: HALT and the exception write the run state, each its own value, and nothing else does. -/
theorem onlyHaltAndFatalOpcodesEndTheRun : Obligations.OnlyHaltAndFatalOpcodesEndTheRun := fun i s t hi h => by
  cases i with
  | addReg | addImm | andReg | andImm | not | ld | ldi | ldr | lea =>
    obtain ⟨u, v, hu, rfl⟩ := exec_result rfl h
    exact .inl hu.frame.run
  | st | sti | str =>
    obtain ⟨u, v, hu, rfl⟩ := exec_store rfl h
    exact .inl hu.frame.run
  | br | jmp | jsr | jsrr | trapOut => cases h; exact .inl rfl
  | trap v => rw [eq_of_exec_trap hi h]; exact .inl rfl
  | trapGetc => cases h; exact .inl s.consoleReadFrame_serviceGetc.run
  | trapIn => cases h; exact .inl s.consoleReadFrame_serviceIn.run
  | trapPuts | trapPutsp =>
    obtain ⟨-, -, -, hrun, -⟩ := State.printString_frame h
    exact .inl hrun
  | trapHalt => cases h; exact .inr (.inl ⟨rfl, rfl⟩)
  | rti x => cases h; exact .inr (.inr ⟨⟨x, .inl rfl⟩, _, illegalWord_append_8 x, rfl⟩)
  | res x => cases h; exact .inr (.inr ⟨⟨x, .inr rfl⟩, _, illegalWord_append_13 x, rfl⟩)

/-! ### The invariant: one step -/

section invariant
variable {i : Instr} {s t : State}

/-- Memory stays canonical under every instruction. -/
theorem wf_of_exec (hi : i.wellFormed = true) (h : exec i s = .next t) (hs : s.mem.wf) : t.mem.wf := by
  cases i with
  | addReg | addImm | andReg | andImm | not | ld | ldi | ldr | lea =>
    obtain ⟨u, v, hu, rfl⟩ := exec_result rfl h
    exact hu.wf hs
  | st | sti | str =>
    obtain ⟨u, v, hu, rfl⟩ := exec_store rfl h
    exact State.wf_memWrite (hu.wf hs) _ v
  | br | jmp | jsr | jsrr | trapOut | trapHalt | rti | res => cases h; exact hs
  | trap v => rwa [eq_of_exec_trap hi h]
  | trapGetc => cases h; rwa [s.consoleReadFrame_serviceGetc.mem]
  | trapIn => cases h; rwa [s.consoleReadFrame_serviceIn.mem]
  | trapPuts | trapPutsp =>
    obtain ⟨-, -, -, -, -, -, hwf⟩ := State.printString_frame h
    exact hwf hs

/-- Only IN touches the mark of a held IN. -/
theorem promptShown_of_exec (hi : i.wellFormed = true) (hin : i ≠ .trapIn) (h : exec i s = .next t) :
    t.promptShown = s.promptShown := by
  cases i with
  | addReg | addImm | andReg | andImm | not | ld | ldi | ldr | lea =>
    obtain ⟨u, v, hu, rfl⟩ := exec_result rfl h
    exact hu.frame.promptShown
  | st | sti | str =>
    obtain ⟨u, v, hu, rfl⟩ := exec_store rfl h
    exact hu.frame.promptShown
  | br | jmp | jsr | jsrr | trapOut | trapHalt | rti | res => cases h; rfl
  | trap v => rw [eq_of_exec_trap hi h]
  | trapGetc => cases h; rcases s.serviceGetc_cases with ⟨-, hs⟩ | ⟨-, hs⟩ <;> rw [hs] <;> rfl
  | trapIn => exact absurd rfl hin
  | trapPuts | trapPutsp =>
    obtain ⟨-, -, -, -, hsame, -⟩ := State.printString_frame h
    exact hsame

/-- What the poll makes of a fetch from the status port is no IN. -/
theorem decode_memRead_kbsr_ne_trapIn (s : State) : decode (s.memRead Config.kbsr).1 ≠ .trapIn := by
  rw [State.memRead_kbsr_fst]
  split <;> decide

/-- An IN that leaves the mark set has blocked. -/
theorem State.not_readable_of_serviceIn (h : s.serviceIn.promptShown = true) : s.console.readable = false := by
  rcases s.serviceIn_cases with ⟨-, hs⟩ | ⟨hr, -⟩
  · rw [hs] at h
    cases h
  · exact hr

/-- A running step that leaves the mark set is one of an IN at PC, off the status port: had another instruction been
fetched, the mark would have stood before, at an IN. -/
theorem trapIn_of_promptShown (hs : s.holdOk) (hrun : s.run = .running) (h : step s = .next t)
    (hp : t.promptShown = true) : s.pc ≠ Config.kbsr ∧ decode (s.cell s.pc) = .trapIn := by
  rw [step_of_running hrun] at h
  by_cases hin : decode s.fetch.1 = .trapIn
  · have hpc : s.pc ≠ Config.kbsr := fun hpc =>
      decode_memRead_kbsr_ne_trapIn s (by rwa [s.fetch_fst, hpc] at hin)
    rw [State.fetch_of_ne hpc] at hin
    exact ⟨hpc, hin⟩
  · obtain ⟨hwf, -⟩ := everyWordIsAnInstruction s.fetch.1
    have hbefore : s.promptShown = true := by
      rw [promptShown_of_exec hwf hin h] at hp
      exact (s.promptShown_touch s.pc).symm.trans hp
    obtain ⟨-, hpc, hcell⟩ := hs hbefore
    exact ⟨hpc, hcell⟩

theorem holdOk_of_step (hs : s.holdOk) (h : step s = .next t) : t.holdOk := fun hp => by
  cases hrun : s.run with
  | ready =>
    rw [step_of_ready hrun] at h
    cases h
    obtain ⟨hrunning, -⟩ := hs hp
    rw [hrun] at hrunning
    cases hrunning
  | running =>
    obtain ⟨hpc, hcell⟩ := trapIn_of_promptShown hs hrun h hp
    have hblocked : s.console.readable = false := by
      rw [step_at hrun hpc hcell] at h
      cases h
      exact State.not_readable_of_serviceIn (s := s.setPc (s.pc + 1)) hp
    rw [step_of_blockedIn hrun hpc hcell hblocked] at h
    cases h
    exact ⟨hrun, hpc, hcell⟩
  | halted => rw [step_of_halted hrun] at h; cases h
  | faulted a ir => rw [step_of_faulted hrun] at h; cases h

theorem wf_of_step (hs : s.mem.wf) (h : step s = .next t) : t.mem.wf := by
  cases hrun : s.run with
  | ready => rw [step_of_ready hrun] at h; cases h; exact hs
  | running =>
    obtain ⟨hwf, -⟩ := everyWordIsAnInstruction s.fetch.1
    rw [step_of_running hrun] at h
    exact wf_of_exec hwf h (s.wf_touch s.pc hs)
  | halted => rw [step_of_halted hrun] at h; cases h
  | faulted a ir => rw [step_of_faulted hrun] at h; cases h

end invariant

/-- Settles O50: each half of the invariant by the kind of step. -/
theorem everyStepKeepsTheInvariant : Obligations.EveryStepKeepsTheInvariant := fun _ _ ⟨hwf, hhold⟩ h =>
  ⟨wf_of_step hwf h, holdOk_of_step hhold h⟩

/-- Settles O51: no cell is listed and no IN is held. -/
theorem resetHasTheInvariant : Obligations.ResetHasTheInvariant :=
  ⟨Memory.wf_nil, fun h => by cases h⟩

/-- Settles O52: the moves at the console keep memory, PC and the run state; a load is plain writes before the start,
when no IN is held. -/
theorem environmentKeepsTheInvariant : Obligations.EnvironmentKeepsTheInvariant := fun s ⟨hwf, hhold⟩ => by
  refine ⟨fun _ => ⟨hwf, hhold⟩, ⟨hwf, hhold⟩, fun _ _ => ⟨hwf, hhold⟩, fun bytes t h => ?_⟩
  obtain ⟨hready, origin, ws, -, rfl⟩ := State.loadImage_ok h
  obtain ⟨-, -, -, -, -, hmark⟩ := s.storeWords_frame ws origin.toNat
  refine ⟨s.wf_storeWords hwf ws _, fun hp => ?_⟩
  obtain ⟨hrunning, -⟩ := hhold (hmark ▸ hp)
  rw [hready] at hrunning
  cases hrunning

/-! ### Runs (R146) -/

/-- A step faults only on an illegal word. -/
theorem not_faulted_of_step {s t : State} (hs : ∀ a ir, s.run ≠ .faulted a ir)
    (hlegal : s.run = .running → ¬ illegalWord s.fetch.1) (h : step s = .next t) (a ir : Word) :
    t.run ≠ .faulted a ir := by
  cases hrun : s.run with
  | ready => rw [step_of_ready hrun] at h; cases h; exact fun hf => by cases hf
  | running =>
    obtain ⟨hwf, -⟩ := everyWordIsAnInstruction s.fetch.1
    rw [step_of_running hrun] at h
    have hfetch : s.fetch.2.run = .running := (s.run_touch s.pc).trans hrun
    rcases onlyHaltAndFatalOpcodesEndTheRun _ _ t hwf h with hsame | ⟨-, hhalt⟩ | ⟨⟨x, hx⟩, -⟩
    · rw [hsame, hfetch]; exact fun hf => by cases hf
    · rw [hhalt]; exact fun hf => by cases hf
    · exact absurd ((illegalWord_iff_decode _).mpr (hx.imp (⟨x, ·⟩) (⟨x, ·⟩))) (hlegal hrun)
  | halted => rw [step_of_halted hrun] at h; cases h
  | faulted a ir => exact absurd hrun (hs a ir)

/-- A run of `n + 1` steps is a step and a run of `n`. -/
theorem run_succ_iff {s t : State} {n : Nat} :
    Host.Core.run Sys2Proof.core (n + 1) s = .next t ↔
      ∃ u, step s = .next u ∧ Host.Core.run Sys2Proof.core n u = .next t := by
  have hcore : Sys2Proof.core.step s = step s := rfl
  cases hstep : step s <;> simp [Host.Core.run, hcore, hstep]

/-- Settles O58: by induction on the length of the run, its first step taken off. -/
theorem runsFaultOnlyOnIllegalWords : Obligations.RunsFaultOnlyOnIllegalWords := fun s hs hlegal n => by
  induction n generalizing s with
  | zero =>
    intro t ht
    cases ht
    exact hs
  | succ n ih =>
    intro t ht
    obtain ⟨u, hu, hrest⟩ := run_succ_iff.mp ht
    have hlegal' := fun m v hv => hlegal (m + 1) v (run_succ_iff.mpr ⟨u, hu, hv⟩)
    exact ih u (not_faulted_of_step hs (hlegal 0 s rfl) hu) hlegal' t hrest

end Sys2Proof.Machine
end

section
/-!
PROOFS. The console's past (43_trap.md R138, R139): every operation does the same with anything written earlier, so
every step does.
-/

namespace Sys2Proof.Machine

section earlier
variable (s : State) (pre : List ConsoleOut)

/-! ### The operations -/

theorem State.conWrite_withEarlierOutput (bs : List Byte) :
    (s.withEarlierOutput pre).conWrite bs = (s.conWrite bs).withEarlierOutput pre := by
  simp [State.withEarlierOutput, State.conWrite, State.setConsole, Console.write]

theorem State.conFlush_withEarlierOutput :
    (s.withEarlierOutput pre).conFlush = s.conFlush.withEarlierOutput pre := by
  simp [State.withEarlierOutput, State.conFlush, State.setConsole, Console.flush]

theorem State.pollKeyboard_withEarlierOutput :
    (s.withEarlierOutput pre).pollKeyboard = s.pollKeyboard.withEarlierOutput pre := by
  have hpoll : (s.withEarlierOutput pre).console.poll.1 = s.console.poll.1 := rfl
  unfold State.pollKeyboard
  rw [hpoll]
  split <;> rfl

theorem State.touch_withEarlierOutput (a : Word) :
    (s.withEarlierOutput pre).touch a = (s.touch a).withEarlierOutput pre := by
  unfold State.touch
  split
  · exact s.pollKeyboard_withEarlierOutput pre
  · rfl

theorem State.memRead_withEarlierOutput (a : Word) :
    (s.withEarlierOutput pre).memRead a = ((s.memRead a).1, (s.memRead a).2.withEarlierOutput pre) := by
  unfold State.memRead
  rw [s.touch_withEarlierOutput pre]
  rfl

theorem State.loadFrom_withEarlierOutput (dr : Reg) (a : Word) :
    (s.withEarlierOutput pre).loadFrom dr a = (s.loadFrom dr a).withEarlierOutput pre := by
  unfold State.loadFrom
  rw [s.memRead_withEarlierOutput pre]
  rfl

theorem State.fetch_withEarlierOutput :
    (s.withEarlierOutput pre).fetch = (s.fetch.1, s.fetch.2.withEarlierOutput pre) := by
  have hpc : (s.withEarlierOutput pre).pc = s.pc := rfl
  unfold State.fetch
  rw [hpc, s.memRead_withEarlierOutput pre]
  rfl

theorem State.walkString_withEarlierOutput {emit : Word → List Byte} (k : Nat) (p : Word) :
    State.walkString emit k p (s.withEarlierOutput pre) =
      (State.walkString emit k p s).map (·.withEarlierOutput pre) := by
  induction k generalizing p s with
  | zero => rfl
  | succ k ih =>
    rw [State.walkString, State.walkString, s.memRead_withEarlierOutput pre]
    split
    · rfl
    · rw [State.conWrite_withEarlierOutput, ih]

/-! ### The services -/

theorem State.printString_withEarlierOutput (emit : Word → List Byte) :
    (s.withEarlierOutput pre).printString emit = onNext (·.withEarlierOutput pre) (s.printString emit) := by
  have hwalk : (s.withEarlierOutput pre).printString emit =
      afterWalk ((State.walkString emit s.walkFuel (s.reg .r0) s).map (·.withEarlierOutput pre)) :=
    congrArg afterWalk (s.walkString_withEarlierOutput pre s.walkFuel (s.reg .r0))
  rw [hwalk, State.printString]
  cases State.walkString emit s.walkFuel (s.reg .r0) s with
  | none => rfl
  | some t => exact congrArg Host.Outcome.next (t.conFlush_withEarlierOutput pre)

theorem State.conRead_withEarlierOutput :
    (s.withEarlierOutput pre).conRead = s.conRead.map fun r => (r.1, r.2.withEarlierOutput pre) := by
  have hreadable : (s.withEarlierOutput pre).console.readable = s.console.readable := rfl
  unfold State.conRead
  rw [hreadable]
  split <;> rfl

theorem State.serviceGetc_withEarlierOutput :
    (s.withEarlierOutput pre).serviceGetc = s.serviceGetc.withEarlierOutput pre := by
  unfold State.serviceGetc
  rw [s.conRead_withEarlierOutput pre]
  cases s.conRead <;> rfl

theorem State.showPrompt_withEarlierOutput :
    (s.withEarlierOutput pre).showPrompt = s.showPrompt.withEarlierOutput pre := by
  have hshown : (s.withEarlierOutput pre).promptShown = s.promptShown := rfl
  unfold State.showPrompt
  rw [hshown, State.conWrite_withEarlierOutput, State.conFlush_withEarlierOutput]
  split <;> rfl

theorem State.serviceIn_withEarlierOutput :
    (s.withEarlierOutput pre).serviceIn = s.serviceIn.withEarlierOutput pre := by
  unfold State.serviceIn
  rw [s.showPrompt_withEarlierOutput pre, s.showPrompt.conRead_withEarlierOutput pre]
  cases s.showPrompt.conRead with
  | none => rfl
  | some r =>
    simp only [Option.map_some, State.conWrite_withEarlierOutput, State.conFlush_withEarlierOutput]
    rfl

theorem State.serviceOut_withEarlierOutput :
    (s.withEarlierOutput pre).serviceOut = s.serviceOut.withEarlierOutput pre := by
  unfold State.serviceOut
  rw [State.conWrite_withEarlierOutput, State.conFlush_withEarlierOutput]
  rfl

theorem State.serviceHalt_withEarlierOutput :
    (s.withEarlierOutput pre).serviceHalt = s.serviceHalt.withEarlierOutput pre := by
  unfold State.serviceHalt
  rw [State.conWrite_withEarlierOutput, State.conFlush_withEarlierOutput]
  rfl

/-! ### The instructions and the step -/

theorem exec_withEarlierOutput {i : Instr} (hi : i.wellFormed = true) :
    exec i (s.withEarlierOutput pre) = onNext (·.withEarlierOutput pre) (exec i s) := by
  cases i with
  | addReg | addImm | andReg | andImm | not | br | jmp | jsr | jsrr | lea | st | str | rti | res => rfl
  | ld dr off => exact congrArg Host.Outcome.next (s.loadFrom_withEarlierOutput pre dr (s.pc + sext16 off))
  | ldr dr base off => exact congrArg Host.Outcome.next (s.loadFrom_withEarlierOutput pre dr (s.reg base + sext16 off))
  | ldi dr off =>
    have hpointer := s.memRead_withEarlierOutput pre (s.pc + sext16 off)
    exact (congrArg (fun r => Host.Outcome.next (r.2.loadFrom dr r.1)) hpointer).trans
      (congrArg Host.Outcome.next (State.loadFrom_withEarlierOutput _ pre dr _))
  | sti sr off =>
    have hpointer := s.memRead_withEarlierOutput pre (s.pc + sext16 off)
    exact congrArg (fun r => Host.Outcome.next (r.2.memWrite r.1 (s.reg sr))) hpointer
  | trap v =>
    have hother := wellFormed_trap_iff.mp hi
    rw [exec_trap_of_other _ hother, exec_trap_of_other _ hother]
    rfl
  | trapGetc => exact congrArg Host.Outcome.next (s.serviceGetc_withEarlierOutput pre)
  | trapOut => exact congrArg Host.Outcome.next (s.serviceOut_withEarlierOutput pre)
  | trapPuts => exact s.printString_withEarlierOutput pre putsBytes
  | trapIn => exact congrArg Host.Outcome.next (s.serviceIn_withEarlierOutput pre)
  | trapPutsp => exact s.printString_withEarlierOutput pre putspBytes
  | trapHalt => exact congrArg Host.Outcome.next (s.serviceHalt_withEarlierOutput pre)

end earlier

/-- Settles O59: the fetch decodes the same word, and then the instruction does the same. -/
theorem outputNeverInfluencesTheCore : Obligations.OutputNeverInfluencesTheCore := fun s pre => by
  have hrun : (s.withEarlierOutput pre).run = s.run := rfl
  cases hs : s.run with
  | ready => rw [step_of_ready hs, step_of_ready (hrun.trans hs)]; rfl
  | running =>
    obtain ⟨hwf, -⟩ := everyWordIsAnInstruction s.fetch.1
    rw [step_of_running hs, step_of_running (hrun.trans hs), s.fetch_withEarlierOutput pre]
    exact exec_withEarlierOutput _ pre hwf
  | halted => rw [step_of_halted hs, step_of_halted (hrun.trans hs)]; rfl
  | faulted a ir => rw [step_of_faulted hs, step_of_faulted (hrun.trans hs)]; rfl

end Sys2Proof.Machine
end

section
/-!
PROOFS. The image load (70_reset_and_hazards.md R167 to R170): the words of a file, and the cells they are written to.
-/

namespace Sys2Proof.Machine

/-! ### The words of a file (R167) -/

theorem bigEndianWord_toNat (hi lo : Byte) : (bigEndianWord hi lo).toNat = 256 * hi.toNat + lo.toNat := by
  rw [bigEndianWord, append_toNat]
  omega

theorem length_imageWords : (bytes : List Byte) → (imageWords bytes).length = bytes.length / 2
  | [] => rfl
  | [_] => by simp [imageWords]
  | _ :: _ :: rest => by
    simp only [imageWords, List.length_cons, length_imageWords rest]
    omega

/-- Word `i` of a file is its bytes `2 i` and `2 i + 1`, the first one high. -/
theorem getElem_imageWords : (bytes : List Byte) → (i : Nat) → (h : i < (imageWords bytes).length) →
    (imageWords bytes)[i] = bigEndianWord (bytes.getD (2 * i) 0) (bytes.getD (2 * i + 1) 0)
  | [], _, h => by cases h
  | [_], _, h => by cases h
  | _ :: _ :: _, 0, _ => rfl
  | _ :: _ :: rest, i + 1, h => getElem_imageWords rest i (Nat.lt_of_succ_lt_succ h)

/-! ### The cells they are written to (R168) -/

/-- Word `k` stands at `a + k`, as far as the address space reaches, and no other cell changes. -/
theorem State.cell_storeWords (s : State) (a : Nat) (ws : List Word) (x : Word) :
    (s.storeWords a ws).cell x = if a ≤ x.toNat then (ws[x.toNat - a]?).getD (s.cell x) else s.cell x := by
  induction ws generalizing a s with
  | nil => simp [State.storeWords]
  | cons w ws ih =>
    have hx := x.isLt
    unfold State.storeWords
    split
    · rename_i ha
      have hthis : x = BitVec.ofNat 16 a ↔ x.toNat = a := by
        simp only [← BitVec.toNat_inj, BitVec.toNat_ofNat, Config.memSize] at ha ⊢
        omega
      rw [ih, State.cell_memWrite]
      simp only [hthis]
      rcases Nat.lt_trichotomy x.toNat a with hlt | heq | hgt
      · rw [if_neg (by omega), if_neg (by omega), if_neg (by omega)]
      · rw [if_neg (by omega), if_pos heq, if_pos (by omega), heq, Nat.sub_self]
        rfl
      · rw [if_pos (by omega), if_neg (by omega), if_pos (by omega),
          show x.toNat - a = x.toNat - (a + 1) + 1 by omega]
        rfl
    · rename_i ha
      rw [if_neg (by simp only [Config.memSize] at ha; omega)]

/-! ### The load -/

theorem State.loadImage_of_length_lt {s : State} (hready : s.run = .ready) {bytes : List Byte} (h : bytes.length < 2) :
    s.loadImage bytes = .error .truncated := by
  have hnone : imageWords bytes = [] := by
    apply List.eq_nil_of_length_eq_zero
    rw [length_imageWords]
    omega
  rw [State.loadImage, if_pos hready, hnone]

theorem State.loadImage_cons {s : State} (hready : s.run = .ready) (hi lo : Byte) (payload : List Byte) :
    s.loadImage (hi :: lo :: payload) = .ok (s.storeWords (256 * hi.toNat + lo.toNat) (imageWords payload)) := by
  rw [State.loadImage, if_pos hready, imageWords, ← bigEndianWord_toNat]

/-- Settles O60: the cells by `cell_storeWords`, where the address is below the top of memory and the file has the
word. -/
theorem imageLoadFillsMemoryFromTheOrigin : Obligations.ImageLoadFillsMemoryFromTheOrigin := fun s hready => by
  refine ⟨fun bytes => State.loadImage_of_length_lt hready, fun hi lo payload =>
    ⟨_, State.loadImage_cons hready hi lo payload, ?_, ?_⟩⟩
  · have horigin : 256 * hi.toNat + lo.toNat < 65536 := bigEndianWord_toNat hi lo ▸ (bigEndianWord hi lo).isLt
    have hlength := length_imageWords payload
    generalize 256 * hi.toNat + lo.toNat = origin at horigin
    refine ⟨fun i hi => ?_, fun x hx => ?_⟩
    · have haddr : (BitVec.ofNat 16 (origin + i)).toNat = origin + i := by
        rw [BitVec.toNat_ofNat]
        omega
      have hi' : i < (imageWords payload).length := by omega
      rw [State.cell_storeWords, haddr, if_pos (by omega), Nat.add_sub_cancel_left, List.getElem?_eq_getElem hi',
        Option.getD_some, getElem_imageWords, bigEndianWord_toNat]
    · have := x.isLt
      rw [State.cell_storeWords]
      split
      · rw [List.getElem?_eq_none (by omega), Option.getD_none]
      · rfl
  · obtain ⟨hregs, hpc, hcond, hrun, hconsole, hmark⟩ :=
      s.storeWords_frame (imageWords payload) (256 * hi.toNat + lo.toNat)
    exact ⟨fun r => congrArg (RegFile.get · r) hregs, hpc, hcond, hrun, hconsole, hmark⟩

end Sys2Proof.Machine
end
